-- ==== Sys2Proof/Word.lean ====
section
/-! DEFINITION. The two bit-vector types of PBFC-RRR: the 64-bit register value (rule R6) and the
byte of a container's backing store (rule R55). -/

namespace Sys2Proof

/-- A register value, a container length, a command word: `u64` (rules R6, R8). -/
abbrev Word := BitVec 64

/-- One byte of a container's backing store (rule R55). -/
abbrev Byte := BitVec 8

/-- A natural number written to a 64-bit register. -/
abbrev toWord (n : Nat) : Word := BitVec.ofNat 64 n

end Sys2Proof
end

