-- ==== Sys2Proof/Syntax.lean ====
section
/-! DEFINITION. The 22 commands of the opcode map (rule R78), one constructor per row of
spec/opcode_table.json. A field of the command word is a natural number, "read as an unsigned number
from its bits" (rule R76); the 64-bit operands come from ARG0 and ARG1 (rule R80) and are no part of
a command. -/

namespace Sys2Proof

/-- The container a GET or LENGTH selects: bit 18 of the word, 0 = SRC and 1 = IDX (rule R72). -/
inductive Sel where
  | src
  | idx
  deriving DecidableEq, Repr

/-- A decoded command. `bs` is the BS field, `rbs` and `rss` are RBS and RSS, `wb` is WB
(rules R72 to R75). -/
inductive Instr where
  | new
  | get8 (bs : Nat) (sel : Sel)
  | get16 (bs : Nat) (sel : Sel)
  | get32 (bs : Nat) (sel : Sel)
  | get64 (bs : Nat) (sel : Sel)
  | set8 (bs : Nat)
  | set16 (bs : Nat)
  | set32 (bs : Nat)
  | set64 (bs : Nat)
  | append8 (bs : Nat)
  | append16 (bs : Nat)
  | append32 (bs : Nat)
  | append64 (bs : Nat)
  | length (sel : Sel)
  | build (rbs rss : Nat)
  | rank0
  | rank1
  | choose
  | floorlog2
  | popcount (wb : Nat)
  | encode (wb : Nat)
  | decode (wb : Nat)
  deriving DecidableEq, Repr

end Sys2Proof
end

