-- ==== Sys2Proof/WellFormed.lean ====
section
/-! DEFINITION. Which commands have an encoding: BS, RBS, RSS and WB are "8-bit unsigned values"
(rule R76). A value the operation rejects (BS = 0, RBS = 65) is well-formed: rule R79 keeps those
apart from decode errors. -/

namespace Sys2Proof

/-- A value an 8-bit field of the command word can hold. -/
def fitsByte (v : Nat) : Bool := decide (v < 256)

/-- The command has an encoding. -/
def Instr.wellFormed : Instr → Bool
  | .new => true
  | .get8 bs _ => fitsByte bs
  | .get16 bs _ => fitsByte bs
  | .get32 bs _ => fitsByte bs
  | .get64 bs _ => fitsByte bs
  | .set8 bs => fitsByte bs
  | .set16 bs => fitsByte bs
  | .set32 bs => fitsByte bs
  | .set64 bs => fitsByte bs
  | .append8 bs => fitsByte bs
  | .append16 bs => fitsByte bs
  | .append32 bs => fitsByte bs
  | .append64 bs => fitsByte bs
  | .length _ => true
  | .build rbs rss => fitsByte rbs && fitsByte rss
  | .rank0 => true
  | .rank1 => true
  | .choose => true
  | .floorlog2 => true
  | .popcount wb => fitsByte wb
  | .encode wb => fitsByte wb
  | .decode wb => fitsByte wb

end Sys2Proof
end

