-- ==== Sys2Proof/Decode.lean ====
section
/-! DEFINITION. The decoder of rule R79, total on every 64-bit word, and after it the encoder,
written from the formats of rules R72 to R75 and the opcode map of rule R78. The decoder answers
`none` exactly for the words that raise ILLEGAL_COMMAND. -/

namespace Sys2Proof

/-- `w[hi:lo]`: bits hi down to lo, read as an unsigned number (rule R7). -/
def bits (w : Word) (hi lo : Nat) : Nat := w.toNat / 2 ^ lo % 2 ^ (hi + 1 - lo)

/-- The SEL field: 0 = SRC, 1 = IDX (rule R72). -/
def selOfBit (v : Nat) : Sel := if v = 0 then .src else .idx

/-- GET by its width code: 00 → 8, 01 → 16, 10 → 32, 11 → 64 (rules R72, R78). -/
def getOfWidthCode (wc bs : Nat) (sel : Sel) : Instr :=
  match wc with
  | 0 => .get8 bs sel
  | 1 => .get16 bs sel
  | 2 => .get32 bs sel
  | _ => .get64 bs sel

/-- SET by its width code (rules R72, R78). -/
def setOfWidthCode (wc bs : Nat) : Instr :=
  match wc with
  | 0 => .set8 bs
  | 1 => .set16 bs
  | 2 => .set32 bs
  | _ => .set64 bs

/-- APPEND by its width code (rules R72, R78). -/
def appendOfWidthCode (wc bs : Nat) : Instr :=
  match wc with
  | 0 => .append8 bs
  | 1 => .append16 bs
  | 2 => .append32 bs
  | _ => .append64 bs

/-- The decode of rule R79: `none` where the rule raises ILLEGAL_COMMAND. -/
def decode (w : Word) : Option Instr :=
  if bits w 63 32 ≠ 0 then none
  else match bits w 7 0 with
    | 0x01 => if bits w 31 8 ≠ 0 then none else some .new
    | 0x02 =>
      if bits w 31 19 ≠ 0 then none
      else some (getOfWidthCode (bits w 17 16) (bits w 15 8) (selOfBit (bits w 18 18)))
    | 0x03 =>
      if bits w 31 18 ≠ 0 then none else some (setOfWidthCode (bits w 17 16) (bits w 15 8))
    | 0x04 =>
      if bits w 31 18 ≠ 0 then none else some (appendOfWidthCode (bits w 17 16) (bits w 15 8))
    | 0x05 =>
      if bits w 31 19 ≠ 0 ∨ bits w 17 8 ≠ 0 then none else some (.length (selOfBit (bits w 18 18)))
    | 0x10 => if bits w 31 24 ≠ 0 then none else some (.build (bits w 15 8) (bits w 23 16))
    | 0x11 =>
      if bits w 31 9 ≠ 0 then none else if bits w 8 8 = 0 then some .rank0 else some .rank1
    | 0x20 => if bits w 31 8 ≠ 0 then none else some .choose
    | 0x21 => if bits w 31 8 ≠ 0 then none else some .floorlog2
    | 0x22 => if bits w 31 16 ≠ 0 then none else some (.popcount (bits w 15 8))
    | 0x23 => if bits w 31 16 ≠ 0 then none else some (.encode (bits w 15 8))
    | 0x24 => if bits w 31 16 ≠ 0 then none else some (.decode (bits w 15 8))
    | _ => none

/-- The instruction the decoder reads from a word of `nbits` bits numbered as
spec/opcode_table.json numbers them: a command is one 64-bit word (rule R70), so the table's bit k is
bit k of CMD. -/
def decodeTableWord (nbits w : Nat) : Option Instr := decode (toWord (w % 2 ^ nbits))

/-- The SEL bit of a container (rule R72). -/
def Sel.toBit : Sel → Nat
  | .src => 0
  | .idx => 1

/-- Format C (rule R72): OP, BS at bit 8, WC at bit 16, SEL at bit 18. -/
def formatC (op bs wc sel : Nat) : Word :=
  toWord (op + bs * 2 ^ 8 + wc * 2 ^ 16 + sel * 2 ^ 18)

/-- Format B (rule R73): OP, RBS at bit 8, RSS at bit 16. -/
def formatB (op rbs rss : Nat) : Word := toWord (op + rbs * 2 ^ 8 + rss * 2 ^ 16)

/-- Format Q (rule R74): OP, BV at bit 8. -/
def formatQ (op bv : Nat) : Word := toWord (op + bv * 2 ^ 8)

/-- Format P (rule R75): OP, WB at bit 8. -/
def formatP (op wb : Nat) : Word := toWord (op + wb * 2 ^ 8)

/-- The command word of a well-formed command (rules R72 to R75, R78). -/
def encode : Instr → Word
  | .new => formatC 0x01 0 0 0
  | .get8 bs sel => formatC 0x02 bs 0 sel.toBit
  | .get16 bs sel => formatC 0x02 bs 1 sel.toBit
  | .get32 bs sel => formatC 0x02 bs 2 sel.toBit
  | .get64 bs sel => formatC 0x02 bs 3 sel.toBit
  | .set8 bs => formatC 0x03 bs 0 0
  | .set16 bs => formatC 0x03 bs 1 0
  | .set32 bs => formatC 0x03 bs 2 0
  | .set64 bs => formatC 0x03 bs 3 0
  | .append8 bs => formatC 0x04 bs 0 0
  | .append16 bs => formatC 0x04 bs 1 0
  | .append32 bs => formatC 0x04 bs 2 0
  | .append64 bs => formatC 0x04 bs 3 0
  | .length sel => formatC 0x05 0 0 sel.toBit
  | .build rbs rss => formatB 0x10 rbs rss
  | .rank0 => formatQ 0x11 0
  | .rank1 => formatQ 0x11 1
  | .choose => formatP 0x20 0
  | .floorlog2 => formatP 0x21 0
  | .popcount wb => formatP 0x22 wb
  | .encode wb => formatP 0x23 wb
  | .decode wb => formatP 0x24 wb

/-- One row of spec/opcode_table.json: the bits the row fixes and their values. -/
structure TableRow where
  mask : Word
  pattern : Word
  deriving DecidableEq, Repr

/-- The row of spec/opcode_table.json ("match", "mask") a command belongs to. -/
def tableRow : Instr → TableRow
  | .new => ⟨0xFFFFFFFFFFFFFFFF, 0x0000000000000001⟩
  | .get8 _ _ => ⟨0xFFFFFFFFFFFB00FF, 0x0000000000000002⟩
  | .get16 _ _ => ⟨0xFFFFFFFFFFFB00FF, 0x0000000000010002⟩
  | .get32 _ _ => ⟨0xFFFFFFFFFFFB00FF, 0x0000000000020002⟩
  | .get64 _ _ => ⟨0xFFFFFFFFFFFB00FF, 0x0000000000030002⟩
  | .set8 _ => ⟨0xFFFFFFFFFFFF00FF, 0x0000000000000003⟩
  | .set16 _ => ⟨0xFFFFFFFFFFFF00FF, 0x0000000000010003⟩
  | .set32 _ => ⟨0xFFFFFFFFFFFF00FF, 0x0000000000020003⟩
  | .set64 _ => ⟨0xFFFFFFFFFFFF00FF, 0x0000000000030003⟩
  | .append8 _ => ⟨0xFFFFFFFFFFFF00FF, 0x0000000000000004⟩
  | .append16 _ => ⟨0xFFFFFFFFFFFF00FF, 0x0000000000010004⟩
  | .append32 _ => ⟨0xFFFFFFFFFFFF00FF, 0x0000000000020004⟩
  | .append64 _ => ⟨0xFFFFFFFFFFFF00FF, 0x0000000000030004⟩
  | .length _ => ⟨0xFFFFFFFFFFFBFFFF, 0x0000000000000005⟩
  | .build _ _ => ⟨0xFFFFFFFFFF0000FF, 0x0000000000000010⟩
  | .rank0 => ⟨0xFFFFFFFFFFFFFFFF, 0x0000000000000011⟩
  | .rank1 => ⟨0xFFFFFFFFFFFFFFFF, 0x0000000000000111⟩
  | .choose => ⟨0xFFFFFFFFFFFFFFFF, 0x0000000000000020⟩
  | .floorlog2 => ⟨0xFFFFFFFFFFFFFFFF, 0x0000000000000021⟩
  | .popcount _ => ⟨0xFFFFFFFFFFFF00FF, 0x0000000000000022⟩
  | .encode _ => ⟨0xFFFFFFFFFFFF00FF, 0x0000000000000023⟩
  | .decode _ => ⟨0xFFFFFFFFFFFF00FF, 0x0000000000000024⟩

end Sys2Proof
end

