-- ==== Sys2Proof/Config.lean ====
section
/-! DEFINITION. What the spec leaves to the platform or leaves unspecified: the free draw of a
result read while BUSY = 1, what an unwritten container byte holds, and the parameter values of
rule R5 that `State.reset` starts with. -/

namespace Sys2Proof.Config

/-- The unspecified 64-bit value of the k-th host read of RES0, RES1, IDX_N or IDX_GEOM made while
STATUS.BUSY = 1 (rule R253: "a model gives it a free draw"). It has no body: nothing can be proved
about its value (assumption 1). -/
opaque freeWord : Nat → Word

/-- What a container byte that no entry lists reads as (DESIGN CHOICE, assumption 2; table row U1 of
93_implementation_defined.md: "A model may hold them as arbitrary or zero"). -/
def unlistedByte : Byte := 0

/-- SRC_CAP_BITS of `State.reset` (DESIGN CHOICE, assumption 3: the spec gives the parameter no
value; this is the one the vectors of 95_test_vectors.md use). -/
def srcCapBits : Word := 0x100000

/-- IDX_CAP_BITS of `State.reset` (DESIGN CHOICE, assumption 3). -/
def idxCapBits : Word := 0x100000

/-- BASE of `State.reset` (DESIGN CHOICE, assumption 3); a multiple of 0x100, as rule R5 asks. -/
def base : Nat := 0

end Sys2Proof.Config
end

