-- ==== Sys2Proof/Machine/State.lean ====
section
/-! DEFINITION. The state of PBFC-RRR (rule R39), the reasons a step can stop, and the state after
reset (rule R240). Beside the spec's own state, `State` holds the parameters of rule R5 and the
model's record of its surroundings: the accesses and turns still to come (`agenda`), the value the
last host read returned, and the count of free draws. -/

namespace Sys2Proof.Machine

/-- The seven error kinds a command can raise (rule R210, codes 1 to 7). -/
inductive ErrorKind where
  | outOfRange
  | invalidBitsize
  | invalidBlockSize
  | illegalCommand
  | capacityExceeded
  | notBuilt
  | invalidOperand
  deriving DecidableEq, Repr

/-- The fields of STATUS (rule R23); its other bits are reserved and read 0. -/
structure Status where
  busy : Bool
  errv : Bool
  ovr : Bool
  built : Bool
  errcode : BitVec 4
  deriving DecidableEq, Repr

/-- The bytes of a container that differ from `Config.unlistedByte`, by byte address. -/
abbrev Memory := List Host.Cell

/-- The canonical form: addresses strictly rising, and no entry that an unlisted address reads as
anyway. -/
def Memory.wf : Memory → Bool
  | [] => true
  | [c] => decide (c.2 ≠ Config.unlistedByte)
  | c :: d :: rest =>
    decide (c.2 ≠ Config.unlistedByte) && decide (c.1 < d.1) && Memory.wf (d :: rest)

/-- A container (rule R34): its length in bits, and its bits, held as bytes by rule R55 (bit p is
bit p mod 8 of byte p / 8). -/
structure Container where
  len : Word
  bytes : Memory
  deriving DecidableEq, Repr

/-- The parameters of rule R5. They are fixed for a run: no step changes them. -/
structure Params where
  srcCapBits : Word
  idxCapBits : Word
  base : Nat
  deriving DecidableEq, Repr

/-- What a host access does. -/
inductive HostOp where
  | read
  | write (v : Word)
  deriving DecidableEq, Repr

/-- One host access: its address, its size in bytes, and what it does. Only 8-byte accesses at
aligned offsets of the window are part of the interface (rule R51). -/
structure HostAccess where
  addr : Nat
  size : Nat
  op : HostOp
  deriving DecidableEq, Repr

/-- One event of the total order of rule R62: a host access, a turn of the engine, or the platform's
hardware reset (rule R240). -/
inductive Event where
  | host (a : HostAccess)
  | engine
  | hardwareReset
  deriving DecidableEq, Repr

/-- The machine state: the registers, STATUS and containers of rule R39, then the parameters, then
the model's own fields. -/
structure State where
  /-- CMD, the last accepted command word (rule R24). -/
  cmd : Word
  /-- ARG0, the first operand (rule R25). -/
  arg0 : Word
  /-- ARG1, the second operand (rule R25). -/
  arg1 : Word
  /-- RES0, the first result (rule R26). -/
  res0 : Word
  /-- RES1, the second result (rule R26). -/
  res1 : Word
  /-- IDX_N, the length of the sequence the index was built from (rule R27). -/
  idxN : Word
  /-- IDX_GEOM, the geometry of the index (rule R28). -/
  idxGeom : Word
  /-- STATUS (rule R23). -/
  status : Status
  /-- SRC, the input container (rule R34). -/
  src : Container
  /-- IDX, the index container (rule R34). -/
  idx : Container
  /-- SRC_CAP_BITS, IDX_CAP_BITS (read through SRC_CAP and IDX_CAP) and BASE (rules R5, R29). -/
  params : Params
  /-- The events still to come, first one first: the model's own field (assumption 4). -/
  agenda : List Event
  /-- The value the last host read returned: the model's own field (assumption 5). -/
  readData : Word
  /-- How many free values have been drawn: the model's own field (assumption 1). -/
  draws : Nat
  deriving DecidableEq, Repr

/-- The reasons the machine stops with a fault. There is none: an error of this hardware latches in
STATUS and the block goes on (rules R212, R213), and nothing else stops it. -/
inductive Fault where
  deriving DecidableEq, Repr

/-- The reasons a step is refused. -/
inductive Refusal where
  /-- Raised by an arm of `exec` whose command has no meaning yet (safe). No arm raises it now. -/
  | notModelled (mnemonic : String)
  /-- Raised by a host access that is not an aligned 64-bit access inside the window: "A model
  refuses such an access and gives it no meaning" (rules R51, R225). Safe. -/
  | hostAccessOutsideInterface
  deriving DecidableEq, Repr

/-- An empty container with no byte listed. -/
def Container.empty : Container := { len := 0, bytes := [] }

/-- STATUS after reset (rule R240). -/
def Status.reset : Status :=
  { busy := false, errv := false, ovr := false, built := false, errcode := 0 }

/-- The state after reset (rule R240); the parameters, the surroundings and the unobservable
container bits are the model's choice (assumptions 1 to 5). -/
def State.reset : State :=
  { cmd := 0, arg0 := 0, arg1 := 0, res0 := 0, res1 := 0, idxN := 0, idxGeom := 0
    status := Status.reset
    src := Container.empty
    idx := Container.empty
    params :=
      { srcCapBits := Config.srcCapBits, idxCapBits := Config.idxCapBits, base := Config.base }
    agenda := []
    readData := 0
    draws := 0 }

end Sys2Proof.Machine
end

