-- ==== Sys2Proof/Machine/Flags.lean ====
section
/-! DEFINITION. STATUS: the error codes, the word a host reads, and every change a STATUS field can
undergo outside reset (rules R23, R33). The block has no condition codes (rule R33). -/

namespace Sys2Proof.Machine

/-- The code written to STATUS.ERRCODE (rule R210). -/
def ErrorKind.code : ErrorKind → BitVec 4
  | .outOfRange => 1
  | .invalidBitsize => 2
  | .invalidBlockSize => 3
  | .illegalCommand => 4
  | .capacityExceeded => 5
  | .notBuilt => 6
  | .invalidOperand => 7

/-- STATUS as a host reads it: BUSY, ERRV, OVR, BUILT in bits 0 to 3, ERRCODE in bits 11:8, every
other bit 0 (rule R23). -/
def Status.word (st : Status) : Word :=
  toWord (st.busy.toNat + 2 * st.errv.toNat + 4 * st.ovr.toNat + 8 * st.built.toNat
    + 256 * st.errcode.toNat)

/-- A command is accepted: BUSY <- 1 (rule R250). -/
def Status.accept (st : Status) : Status := { st with busy := true }

/-- A command completes: BUSY <- 0 (rule R251). -/
def Status.complete (st : Status) : Status := { st with busy := false }

/-- A write is dropped: OVR <- 1 (rule R252). -/
def Status.overrun (st : Status) : Status := { st with ovr := true }

/-- A BUILD succeeds: BUILT <- 1 (rule R190). -/
def Status.markBuilt (st : Status) : Status := { st with built := true }

/-- The error latch: ERRCODE <- code(E), ERRV <- 1, BUSY <- 0 (rule R212). -/
def Status.latch (e : ErrorKind) (st : Status) : Status :=
  { st with errcode := e.code, errv := true, busy := false }

end Sys2Proof.Machine
end

