-- ==== Sys2Proof/Machine/Ops.lean ====
section
/-! DEFINITION. The named operations over the state: bytes and bits of a container (rules R11, R55),
writing the result registers, completing a command, the error latch (rule R212: the trap entry of
this hardware) and, beside it, the reset, the only way out of the error state (rules R217, R240). -/

namespace Sys2Proof.Machine

/-! ### Bytes -/

/-- The byte at an address. -/
def Memory.readByte : Memory → Nat → Byte
  | [], _ => Config.unlistedByte
  | (k, v) :: rest, a => if k = a then v else Memory.readByte rest a

/-- Put a byte in front of a memory, unless an unlisted address reads as it. -/
def Memory.cons (a : Nat) (v : Byte) (m : Memory) : Memory :=
  if v = Config.unlistedByte then m else (a, v) :: m

/-- Write a byte, keeping the canonical form. -/
def Memory.writeByte : Memory → Nat → Byte → Memory
  | [], a, v => Memory.cons a v []
  | (k, w) :: rest, a, v =>
    if a < k then Memory.cons a v ((k, w) :: rest)
    else if a = k then Memory.cons a v rest
    else (k, w) :: Memory.writeByte rest a v

/-- A byte with its low j bits cleared. -/
def Byte.clearLow (j : Nat) (v : Byte) : Byte := (v >>> j) <<< j

/-- Clear every bit at a position below L. -/
def Memory.clearBelow (L : Nat) : Memory → Memory
  | [] => []
  | (k, v) :: rest =>
    Memory.cons k (Byte.clearLow (L - 8 * k) v) (Memory.clearBelow L rest)

/-! ### Bits -/

/-- A byte with bit j set to b. -/
def Byte.putBit (v : Byte) (j : Nat) (b : Bool) : Byte :=
  if b then v ||| (1#8 <<< j) else v &&& ~~~(1#8 <<< j)

/-- `C.bit(p)`: bit p mod 8 of byte p / 8 (rule R55). -/
def Container.bit (c : Container) (p : Nat) : Bool := (c.bytes.readByte (p / 8)).getLsbD (p % 8)

/-- `C.bit(p) <- b` (rule R11). -/
def Container.setBit (c : Container) (p : Nat) (b : Bool) : Container :=
  { c with
    bytes := c.bytes.writeByte (p / 8) (Byte.putBit (c.bytes.readByte (p / 8)) (p % 8) b) }

/-- `MemRead(C, p, n)`: the n bits from position p, bit p lowest (rule R11). -/
def Container.memRead (c : Container) (p : Nat) : Nat → Nat
  | 0 => 0
  | n + 1 => (c.bit p).toNat + 2 * Container.memRead c (p + 1) n

/-- `MemWrite(C, p, n, v)`: the low n bits of v to positions p to p + n − 1, no other bit changed
(rule R11). -/
def Container.memWrite (c : Container) (p : Nat) : Nat → Nat → Container
  | 0, _ => c
  | n + 1, v => Container.memWrite (c.setBit p (v % 2 = 1)) (p + 1) n (v / 2)

/-- Zero the bits at positions 0 to L − 1 (the loop of rule R120). -/
def Container.zeroFill (c : Container) (L : Nat) : Container :=
  { c with bytes := c.bytes.clearBelow L }

/-- Set the length. -/
def Container.setLen (c : Container) (n : Nat) : Container := { c with len := toWord n }

/-! ### The state -/

/-- The answer of a meaning. -/
abbrev Answer := Host.Outcome State Fault Refusal

/-- The container a command selects (rule R72). -/
def State.container (s : State) : Sel → Container
  | .src => s.src
  | .idx => s.idx

/-- RES0 <- v. -/
def State.setRes0 (s : State) (v : Nat) : State := { s with res0 := toWord v }

/-- RES1 <- v. -/
def State.setRes1 (s : State) (v : Nat) : State := { s with res1 := toWord v }

/-- SRC <- c. -/
def State.setSrc (s : State) (c : Container) : State := { s with src := c }

/-- The command succeeds: BUSY <- 0 in the step that writes its effects (rule R251). -/
def State.complete (s : State) : State := { s with status := s.status.complete }

/-- TAKING AN ERROR, `raise E` (rules R12, R212): the latch, and no other change. What an error
saves is CMD, ARG0 and ARG1, which stay (rule R211); there is no vector and no saved pc (rule
R216). -/
def State.raise (s : State) (e : ErrorKind) : State := { s with status := s.status.latch e }

/-- THE WAY OUT (rules R217, R240, R241): every register, STATUS field and container to its reset
value. The parameters are not state (rule R39), and the surroundings are not the block's (assumption
8). The container bits, unspecified after reset, read 0 here (assumption 2). -/
def State.resetBlock (s : State) : State :=
  { s with
    cmd := 0, arg0 := 0, arg1 := 0, res0 := 0, res1 := 0, idxN := 0, idxGeom := 0
    status := Status.reset
    src := Container.empty
    idx := Container.empty }

/-- The word the engine decodes: the latched CMD (rules R79, R251). The block fetches no
instructions (rule R32). -/
def State.commandWord (s : State) : Word := s.cmd

end Sys2Proof.Machine
end

