-- ==== Sys2Proof/Machine/Operands.lean ====
section
/-! DEFINITION. The operand forms of rule R80: ARG0 as a position or a number, ARG1 as a value or a
number, the low bits of a value (rule R9), the bitsize check the width W of a container command stands
for (rule R77), and which of ARG0, ARG1, RES0 and RES1 each command uses (the table of rule R80). -/

namespace Sys2Proof

/-! ### The registers a command uses -/

/-- The command reads ARG0 (rule R80). -/
def Instr.readsArg0 : Instr → Bool
  | .new => true
  | .get8 _ _ => true
  | .get16 _ _ => true
  | .get32 _ _ => true
  | .get64 _ _ => true
  | .set8 _ => true
  | .set16 _ => true
  | .set32 _ => true
  | .set64 _ => true
  | .append8 _ => false
  | .append16 _ => false
  | .append32 _ => false
  | .append64 _ => false
  | .length _ => false
  | .build _ _ => false
  | .rank0 => true
  | .rank1 => true
  | .choose => true
  | .floorlog2 => true
  | .popcount _ => true
  | .encode _ => true
  | .decode _ => true

/-- The command reads ARG1 (rule R80). -/
def Instr.readsArg1 : Instr → Bool
  | .new => false
  | .get8 _ _ => false
  | .get16 _ _ => false
  | .get32 _ _ => false
  | .get64 _ _ => false
  | .set8 _ => true
  | .set16 _ => true
  | .set32 _ => true
  | .set64 _ => true
  | .append8 _ => true
  | .append16 _ => true
  | .append32 _ => true
  | .append64 _ => true
  | .length _ => false
  | .build _ _ => false
  | .rank0 => false
  | .rank1 => false
  | .choose => true
  | .floorlog2 => false
  | .popcount _ => false
  | .encode _ => false
  | .decode _ => true

/-- The command writes RES0 on success (rule R80). -/
def Instr.writesRes0 : Instr → Bool
  | .new => false
  | .get8 _ _ => true
  | .get16 _ _ => true
  | .get32 _ _ => true
  | .get64 _ _ => true
  | .set8 _ => false
  | .set16 _ => false
  | .set32 _ => false
  | .set64 _ => false
  | .append8 _ => true
  | .append16 _ => true
  | .append32 _ => true
  | .append64 _ => true
  | .length _ => true
  | .build _ _ => true
  | .rank0 => true
  | .rank1 => true
  | .choose => true
  | .floorlog2 => true
  | .popcount _ => true
  | .encode _ => true
  | .decode _ => true

/-- The command writes RES1 on success (rule R80). -/
def Instr.writesRes1 : Instr → Bool
  | .new => false
  | .get8 _ _ => false
  | .get16 _ _ => false
  | .get32 _ _ => false
  | .get64 _ _ => false
  | .set8 _ => false
  | .set16 _ => false
  | .set32 _ => false
  | .set64 _ => false
  | .append8 _ => false
  | .append16 _ => false
  | .append32 _ => false
  | .append64 _ => false
  | .length _ => false
  | .build _ _ => false
  | .rank0 => false
  | .rank1 => false
  | .choose => false
  | .floorlog2 => false
  | .popcount _ => false
  | .encode _ => true
  | .decode _ => false

namespace Machine

/-! ### Operand values -/

/-- `low(k, v)`: the low k bits of v (rule R9). -/
def low (k v : Nat) : Nat := v % 2 ^ k

/-- ARG0 whole, as u64 (rule R76): a position, a length, n, a class, a raw block. -/
def State.operand0 (s : State) : Nat := s.arg0.toNat

/-- ARG1 whole, as u64 (rule R76): a value, k, an offset. -/
def State.operand1 (s : State) : Nat := s.arg1.toNat

/-- The value a SET or APPEND of width W moves: "the low W bits of ARG1 before its low bitsize bits
are taken" (rule R77). -/
def State.fieldValue (s : State) (w bs : Nat) : Nat := low bs (low w s.operand1)

/-- "bs = 0 or bs > W", the condition of INVALID_BITSIZE (rules R121, R130, R140). -/
def badBitsize (w bs : Nat) : Bool := decide (bs = 0) || decide (w < bs)

end Machine

end Sys2Proof
end

