-- ==== Sys2Proof/Machine/ContainerOps.lean ====
section
/-! DEFINITION. The container commands NEW, GET, SET, APPEND and LENGTH (41_container.md). The four
widths of an operation share one rule (R121, R130, R140); each command is a definition of its own
over it. -/

namespace Sys2Proof.Machine

/-- NEW (rule R120). -/
def execNew (s : State) : Answer :=
  let L := s.operand0
  if s.params.srcCapBits.toNat < L then .next (s.raise .capacityExceeded)
  else .next (s.setSrc ((s.src.setLen L).zeroFill L)).complete

/-- GET_W (rule R121): bitsize, then range, then the field, zero-extended. The two extensions of the
rule change no bit, since the field is below 2^bs and bs ≤ W ≤ 64. -/
def getField (w bs : Nat) (sel : Sel) (s : State) : Answer :=
  let i := s.operand0
  let c := s.container sel
  if badBitsize w bs then .next (s.raise .invalidBitsize)
  else if c.len.toNat < i + bs then .next (s.raise .outOfRange)
  else .next (s.setRes0 (c.memRead i bs)).complete

/-- GET8 (rule R122). -/
def execGet8 (bs : Nat) (sel : Sel) (s : State) : Answer := getField 8 bs sel s

/-- GET16 (rule R123). -/
def execGet16 (bs : Nat) (sel : Sel) (s : State) : Answer := getField 16 bs sel s

/-- GET32 (rule R124). -/
def execGet32 (bs : Nat) (sel : Sel) (s : State) : Answer := getField 32 bs sel s

/-- GET64 (rule R125). -/
def execGet64 (bs : Nat) (sel : Sel) (s : State) : Answer := getField 64 bs sel s

/-- SET_W, on SRC only (rule R130). -/
def setField (w bs : Nat) (s : State) : Answer :=
  let i := s.operand0
  if badBitsize w bs then .next (s.raise .invalidBitsize)
  else if s.src.len.toNat < i + bs then .next (s.raise .outOfRange)
  else .next (s.setSrc (s.src.memWrite i bs (s.fieldValue w bs))).complete

/-- SET8 (rule R131). -/
def execSet8 (bs : Nat) (s : State) : Answer := setField 8 bs s

/-- SET16 (rule R132). -/
def execSet16 (bs : Nat) (s : State) : Answer := setField 16 bs s

/-- SET32 (rule R133). -/
def execSet32 (bs : Nat) (s : State) : Answer := setField 32 bs s

/-- SET64 (rule R134). -/
def execSet64 (bs : Nat) (s : State) : Answer := setField 64 bs s

/-- APPEND_W, on SRC only (rule R140): the length grows by bs, and the value is written at the old
end. -/
def appendField (w bs : Nat) (s : State) : Answer :=
  let old := s.src.len.toNat
  if badBitsize w bs then .next (s.raise .invalidBitsize)
  else if s.params.srcCapBits.toNat < old + bs then .next (s.raise .capacityExceeded)
  else
    .next ((s.setSrc ((s.src.setLen (old + bs)).memWrite old bs (s.fieldValue w bs))).setRes0
      (old + bs)).complete

/-- APPEND8 (rule R141). -/
def execAppend8 (bs : Nat) (s : State) : Answer := appendField 8 bs s

/-- APPEND16 (rule R142). -/
def execAppend16 (bs : Nat) (s : State) : Answer := appendField 16 bs s

/-- APPEND32 (rule R143). -/
def execAppend32 (bs : Nat) (s : State) : Answer := appendField 32 bs s

/-- APPEND64 (rule R144). -/
def execAppend64 (bs : Nat) (s : State) : Answer := appendField 64 bs s

/-- LENGTH (rule R150). -/
def execLength (sel : Sel) (s : State) : Answer :=
  .next (s.setRes0 (s.container sel).len.toNat).complete

end Sys2Proof.Machine
end

