-- ==== Sys2Proof/Machine/Primitives.lean ====
section
/-! DEFINITION. The combinatorial primitives (rules R9, R100 to R102) and the commands that expose
them: CHOOSE, FLOORLOG2 and POPCOUNT (rules R110 to R112). -/

namespace Sys2Proof.Machine

/-- The bits needed to write x, looking at no more than `fuel` of them. -/
def bitWidth : Nat → Nat → Nat
  | 0, _ => 0
  | fuel + 1, x => if x = 0 then 0 else bitWidth fuel (x / 2) + 1

/-- `bw(x)` of rule R9, for x < 2^64: bw(0) = 0, and bw(x) = k + 1 where 2^k ≤ x < 2^(k+1). Every x
the rules apply it to is a u64 or a binomial below 2^61. -/
def bw (x : Nat) : Nat := bitWidth 64 x

/-- floorLog2 (rule R100): 0 for n = 0, else bw(n) − 1. -/
def floorLog2 (n : Nat) : Nat := if n = 0 then 0 else bw n - 1

/-- The multiplicative loop of rule R101 on unbounded numbers: after step i the value is
binom(n, i). -/
def chooseLoop (n : Nat) : Nat → Nat
  | 0 => 1
  | i + 1 => chooseLoop n i * (n - i) / (i + 1)

/-- choose(n, k) = binom(n, k), exact, 0 when k > n (rule R101). -/
def choose (n k : Nat) : Nat := if n < k then 0 else chooseLoop n (min k (n - k))

/-- popcount(width, v): the 1 bits among the low `width` bits of v (rule R102). -/
def popcount : Nat → Nat → Nat
  | 0, _ => 0
  | width + 1, v => v % 2 + popcount width (v / 2)

/-- CHOOSE (rule R110). -/
def execChoose (s : State) : Answer :=
  let n := s.operand0
  let k := s.operand1
  if 64 < n then .next (s.raise .invalidOperand)
  else .next (s.setRes0 (choose n k)).complete

/-- FLOORLOG2 (rule R111). -/
def execFloorlog2 (s : State) : Answer := .next (s.setRes0 (floorLog2 s.operand0)).complete

/-- POPCOUNT (rule R112). -/
def execPopcount (wb : Nat) (s : State) : Answer :=
  if 64 < wb then .next (s.raise .invalidOperand)
  else .next (s.setRes0 (popcount wb s.operand0)).complete

end Sys2Proof.Machine
end

