-- ==== Sys2Proof/Machine/Codec.lean ====
section
/-! DEFINITION. The block codec (rules R160, R162) and the commands ENCODE and DECODE (rules R170,
R171). -/

namespace Sys2Proof.Machine

/-- The scan of rule R160 over the last m positions of a block: V holds their bits (lowest first),
rem is the count of ones among them, off the offset so far. Position p of a b-bit block has
m = b − p, so choose(b − p − 1, rem) is choose(m − 1, rem). -/
def encodeScan : Nat → Nat → Nat → Nat → Nat
  | 0, _, _, off => off
  | m + 1, V, rem, off =>
    if V % 2 = 1 then encodeScan m (V / 2) (rem - 1) (off + choose m rem)
    else encodeScan m (V / 2) rem off

/-- encode(b, V) = (class, offset) (rule R160). -/
def encodeBlock (b V : Nat) : Nat × Nat :=
  let c := popcount b V
  (c, encodeScan b V c 0)

/-- The loop of rule R162 over the last m positions of a block, answering their bits lowest first. -/
def unrankScan : Nat → Nat → Nat → Nat
  | 0, _, _ => 0
  | m + 1, rem, o =>
    if rem = 0 then 0
    else if choose m rem ≤ o then 1 + 2 * unrankScan m (rem - 1) (o - choose m rem)
    else 2 * unrankScan m rem o

/-- unrank(b, c, o) (rule R162). -/
def unrank (b c o : Nat) : Nat := unrankScan b c o

/-- "b = 0 or b > 64", the first condition of INVALID_OPERAND (rules R170, R171). -/
def badBlockSize (b : Nat) : Bool := decide (b = 0) || decide (64 < b)

/-- ENCODE (rule R170). -/
def execEncode (wb : Nat) (s : State) : Answer :=
  if badBlockSize wb then .next (s.raise .invalidOperand)
  else
    let co := encodeBlock wb (low wb s.operand0)
    .next ((s.setRes0 co.1).setRes1 co.2).complete

/-- DECODE (rule R171). -/
def execDecode (wb : Nat) (s : State) : Answer :=
  let c := s.operand0
  let o := s.operand1
  if badBlockSize wb then .next (s.raise .invalidOperand)
  else if wb < c then .next (s.raise .invalidOperand)
  else if choose wb c ≤ o then .next (s.raise .invalidOperand)
  else .next (s.setRes0 (unrank wb c o)).complete

end Sys2Proof.Machine
end

