-- ==== Sys2Proof/Machine/Rrr.lean ====
section
/-! DEFINITION. The RRR index: its geometry (rule R181) and layout (rule R186), its construction
(rule R189), the rank walk (rule R194), and the commands BUILD, RANK0 and RANK1 (rules R190, R195,
R196). -/

namespace Sys2Proof.Machine

/-! ### Geometry -/

/-- ⌈a/b⌉ for b > 0 (rule R8). -/
def ceilDiv (a b : Nat) : Nat := (a + b - 1) / b

/-- The stored parameters of an index: n, b, s and the three field sizes (rule R38). -/
structure Geometry where
  n : Nat
  b : Nat
  s : Nat
  cfs : Nat
  ofs : Nat
  crfs : Nat
  deriving DecidableEq, Repr

/-- SBS, the serialized block size (rule R181). -/
def Geometry.sbs (g : Geometry) : Nat := g.cfs + g.ofs

/-- SSBS, the serialized superblock size (rule R181). -/
def Geometry.ssbs (g : Geometry) : Nat := g.crfs + g.s * g.sbs

/-- M, the number of blocks (rules R181, R185). -/
def Geometry.blocks (g : Geometry) : Nat := ceilDiv g.n g.b

/-- H, the number of superblocks (rule R181). -/
def Geometry.supers (g : Geometry) : Nat := ceilDiv g.blocks g.s

/-- CAP, the length of IDX (rules R181, R188). -/
def Geometry.cap (g : Geometry) : Nat := g.supers * g.crfs + g.blocks * g.sbs

/-- b from RBS: exact, or auto for 0 (rule R181). -/
def chosenBlockSize (n rbs : Nat) : Nat := if rbs = 0 then max 1 (floorLog2 n / 2) else rbs

/-- s from RSS: exact, or auto for 0 and 1 (rule R181). -/
def chosenSuperSize (n rss : Nat) : Nat := if rss ≤ 1 then max 2 (floorLog2 n) else rss

/-- The geometry of an index over n bits with the block sizes b and s (rules R181 to R184). -/
def Geometry.of (n b s : Nat) : Geometry :=
  { n := n, b := b, s := s
    cfs := floorLog2 b + 1
    ofs := floorLog2 (choose b (b / 2)) + 1
    crfs := bw n }

/-- The geometry BUILD computes (rule R181). -/
def Geometry.make (n rbs rss : Nat) : Geometry :=
  Geometry.of n (chosenBlockSize n rbs) (chosenSuperSize n rss)

/-- IDX_GEOM: B in bits 7:0, S 15:8, CFS 23:16, OFS 31:24, CRFS 39:32 (rules R28, R190); each field
fits its eight bits, so the disjunction of the rule is a sum. -/
def Geometry.word (g : Geometry) : Word :=
  toWord (g.b + g.s * 2 ^ 8 + g.cfs * 2 ^ 16 + g.ofs * 2 ^ 24 + g.crfs * 2 ^ 32)

/-- One 8-bit field of IDX_GEOM, from bit lo (rule R28). -/
def geomField (w : Word) (lo : Nat) : Nat := w.toNat / 2 ^ lo % 2 ^ 8

/-- The geometry of the current index: IDX_N and the fields of IDX_GEOM (rules R38, R194). -/
def State.geometry (s : State) : Geometry :=
  { n := s.idxN.toNat
    b := geomField s.idxGeom 0
    s := geomField s.idxGeom 8
    cfs := geomField s.idxGeom 16
    ofs := geomField s.idxGeom 24
    crfs := geomField s.idxGeom 32 }

/-! ### Layout -/

/-- hdr(k), the position of superblock k's header (rule R186). -/
def Geometry.hdr (g : Geometry) (k : Nat) : Nat := k * g.ssbs

/-- cls(j), the position of block j's class field (rule R186). -/
def Geometry.cls (g : Geometry) (j : Nat) : Nat := j / g.s * g.ssbs + g.crfs + j % g.s * g.sbs

/-- ofs(j), the position of block j's offset field (rule R186). -/
def Geometry.off (g : Geometry) (j : Nat) : Nat := g.cls j + g.cfs

/-! ### Construction -/

/-- Where the construction of rule R189 stands: the block index, the three variables of the rule,
and the image IDX'. -/
structure BuildCursor where
  j : Nat
  inCursor : Nat
  outCursor : Nat
  cumRank : Nat
  image : Container
  deriving DecidableEq, Repr

/-- §4.4 step 3: the header of a superblock, at its first block (rule R189). -/
def buildHeader (g : Geometry) (k : BuildCursor) : BuildCursor :=
  if k.j % g.s = 0 then
    { k with
      image := k.image.memWrite k.outCursor g.crfs k.cumRank
      outCursor := k.outCursor + g.crfs }
  else k

/-- §4.4 steps 4 to 6: one block (rule R189). A short final block reads fewer bits, so the bits
above them are 0 (rule R185). -/
def buildBlock (g : Geometry) (src : Container) (k : BuildCursor) : BuildCursor :=
  let w := min g.b (g.n - k.inCursor)
  let co := encodeBlock g.b (src.memRead k.inCursor w)
  { j := k.j + 1
    inCursor := k.inCursor + w
    outCursor := k.outCursor + g.cfs + g.ofs
    cumRank := k.cumRank + co.1
    image := (k.image.memWrite k.outCursor g.cfs co.1).memWrite (k.outCursor + g.cfs) g.ofs co.2 }

/-- The loop of rule R189 over the given number of blocks. -/
def buildLoop (g : Geometry) (src : Container) : Nat → BuildCursor → BuildCursor
  | 0, k => k
  | m + 1, k => buildLoop g src m (buildBlock g src (buildHeader g k))

/-- IDX after the commit of rule R190: length CAP, bits 0 to CAP − 1 from the image, which starts
zeroed and is written whole (rule R186); the bits at and above CAP, which no command observes, keep
their values. -/
def buildImage (g : Geometry) (src idx : Container) : Container :=
  (buildLoop g src g.blocks
    { j := 0, inCursor := 0, outCursor := 0, cumRank := 0
      image := (idx.setLen g.cap).zeroFill g.cap }).image

/-- The commit of rule R190. -/
def State.commitIndex (s : State) (g : Geometry) : State :=
  { s with
    idx := buildImage g s.src s.idx
    idxN := toWord g.n
    idxGeom := g.word
    status := s.status.markBuilt
    res0 := toWord g.cap }

/-- BUILD (rule R190). -/
def execBuild (rbs rss : Nat) (s : State) : Answer :=
  if 64 < rbs then .next (s.raise .invalidBlockSize)
  else
    let g := Geometry.make s.src.len.toNat rbs rss
    if s.params.idxCapBits.toNat < g.cap then .next (s.raise .capacityExceeded)
    else .next (s.commitIndex g).complete

/-! ### Rank -/

/-- The class fields of `full` consecutive blocks from position cur, summed (rule R194, the loop). -/
def classSum (g : Geometry) (idx : Container) : Nat → Nat → Nat
  | 0, _ => 0
  | full + 1, cur => idx.memRead cur g.cfs + classSum g idx full (cur + g.sbs)

/-- The 1 bits among the first rem bits of the block whose fields start at cur (rule R194, step 5). -/
def partialRank (g : Geometry) (idx : Container) (cur rem : Nat) : Nat :=
  let c := idx.memRead cur g.cfs
  let o := idx.memRead (cur + g.cfs) g.ofs
  popcount rem (unrank g.b c o)

/-- The superblock the walk starts in, clamped to the last one (rule R194; 90_conflicts.md C12). -/
def Geometry.walkStart (g : Geometry) (i : Nat) : Nat := min (i / (g.s * g.b)) (g.supers - 1)

/-- rank1(i), the walk of rule R194. -/
def rankOnes (g : Geometry) (idx : Container) (i : Nat) : Nat :=
  if i = 0 then 0
  else
    let sb := g.walkStart i
    let base := sb * g.ssbs
    let rest := i - sb * (g.s * g.b)
    let full := rest / g.b
    let rem := rest % g.b
    let cur := base + g.crfs
    let r := idx.memRead base g.crfs + classSum g idx full cur
    if 0 < rem then r + partialRank g idx (cur + full * g.sbs) rem else r

/-- The checks RANK0 and RANK1 share, then the answer f makes of i and rank1(i) (rules R195,
R196). -/
def rankQuery (f : Nat → Nat → Nat) (s : State) : Answer :=
  let i := s.operand0
  if s.status.built = false then .next (s.raise .notBuilt)
  else if s.idxN.toNat < i then .next (s.raise .outOfRange)
  else .next (s.setRes0 (f i (rankOnes s.geometry s.idx i))).complete

/-- RANK0 (rule R195): i − rank1(i). -/
def execRank0 (s : State) : Answer := rankQuery (fun i r => i - r) s

/-- RANK1 (rule R196). -/
def execRank1 (s : State) : Answer := rankQuery (fun _ r => r) s

end Sys2Proof.Machine
end

