-- ==== Sys2Proof/Machine/Dispatch.lean ====
section
/-! DEFINITION. Which meaning each command has: one arm per constructor of `Instr`. -/

namespace Sys2Proof.Machine

def exec (i : Instr) (s : State) : Host.Outcome State Fault Refusal :=
  match i with
  | .new => Sys2Proof.Machine.execNew s
  | .get8 bs sel => Sys2Proof.Machine.execGet8 bs sel s
  | .get16 bs sel => Sys2Proof.Machine.execGet16 bs sel s
  | .get32 bs sel => Sys2Proof.Machine.execGet32 bs sel s
  | .get64 bs sel => Sys2Proof.Machine.execGet64 bs sel s
  | .set8 bs => Sys2Proof.Machine.execSet8 bs s
  | .set16 bs => Sys2Proof.Machine.execSet16 bs s
  | .set32 bs => Sys2Proof.Machine.execSet32 bs s
  | .set64 bs => Sys2Proof.Machine.execSet64 bs s
  | .append8 bs => Sys2Proof.Machine.execAppend8 bs s
  | .append16 bs => Sys2Proof.Machine.execAppend16 bs s
  | .append32 bs => Sys2Proof.Machine.execAppend32 bs s
  | .append64 bs => Sys2Proof.Machine.execAppend64 bs s
  | .length sel => Sys2Proof.Machine.execLength sel s
  | .build rbs rss => Sys2Proof.Machine.execBuild rbs rss s
  | .rank0 => Sys2Proof.Machine.execRank0 s
  | .rank1 => Sys2Proof.Machine.execRank1 s
  | .choose => Sys2Proof.Machine.execChoose s
  | .floorlog2 => Sys2Proof.Machine.execFloorlog2 s
  | .popcount wb => Sys2Proof.Machine.execPopcount wb s
  | .encode wb => Sys2Proof.Machine.execEncode wb s
  | .decode wb => Sys2Proof.Machine.execDecode wb s

end Sys2Proof.Machine
end

