-- ==== Sys2Proof/Machine/Engine.lean ====
section
/-! DEFINITION. The engine's step (rules R79, R251): decode the latched word, raise ILLEGAL_COMMAND
where rule R79 does, and otherwise run the command. -/

namespace Sys2Proof.Machine

/-- The engine's one step while a command is pending (rules R79, R251). -/
def runCommand (s : State) : Answer :=
  match decode s.commandWord with
  | none => .next (s.raise .illegalCommand)
  | some i => exec i s

/-- A turn of the engine: its step while BUSY = 1, and nothing while BUSY = 0 ("While BUSY = 0 the
engine has no step", rule R251). -/
def engineTurn (s : State) : Answer := if s.status.busy then runCommand s else .next s

end Sys2Proof.Machine
end

