-- ==== Sys2Proof/Machine/Window.lean ====
section
/-! DEFINITION. The host's side: the register window (rules R21 to R30), what a host read answers
(rule R253 while BUSY = 1) and what a host write does (rules R22, R24, R25, R250, R252). -/

namespace Sys2Proof.Machine

/-- The registers of the window; `reserved` stands for the offsets 0x58 to 0xF8 (rule R21). -/
inductive WindowReg where
  | ctrl
  | status
  | cmd
  | arg0
  | arg1
  | res0
  | res1
  | idxN
  | idxGeom
  | srcCap
  | idxCap
  | reserved
  deriving DecidableEq, Repr

/-- The register at an offset of the window (rule R21). -/
def WindowReg.at (offset : Nat) : WindowReg :=
  match offset with
  | 0x00 => .ctrl
  | 0x08 => .status
  | 0x10 => .cmd
  | 0x18 => .arg0
  | 0x20 => .arg1
  | 0x28 => .res0
  | 0x30 => .res1
  | 0x38 => .idxN
  | 0x40 => .idxGeom
  | 0x48 => .srcCap
  | 0x50 => .idxCap
  | _ => .reserved

/-- The offset an access reaches: `none` unless it is a 64-bit access at a multiple of 8 within
BASE + [0x00, 0xFF] (rule R51). -/
def windowOffset (base : Nat) (a : HostAccess) : Option Nat :=
  if a.size = 8 ∧ base ≤ a.addr ∧ a.addr - base ≤ 0xFF ∧ (a.addr - base) % 8 = 0 then
    some (a.addr - base)
  else none

/-- The host gets the value v. -/
def State.answerRead (s : State) (v : Word) : State := { s with readData := v }

/-- The host gets an unspecified value: a fresh free draw (rule R253; assumption 1). -/
def State.answerFree (s : State) : State :=
  { s with readData := Config.freeWord s.draws, draws := s.draws + 1 }

/-- A register that holds no defined value while BUSY = 1 (rule R253). -/
def State.answerResult (s : State) (v : Word) : State :=
  if s.status.busy then s.answerFree else s.answerRead v

/-- A host read of a register; no read has a side effect on the block (rule R53). -/
def hostRead (r : WindowReg) (s : State) : State :=
  match r with
  | .ctrl => s.answerRead 0
  | .status => s.answerRead s.status.word
  | .cmd => s.answerRead s.cmd
  | .arg0 => s.answerRead s.arg0
  | .arg1 => s.answerRead s.arg1
  | .res0 => s.answerResult s.res0
  | .res1 => s.answerResult s.res1
  | .idxN => s.answerResult s.idxN
  | .idxGeom => s.answerResult s.idxGeom
  | .srcCap => s.answerRead s.params.srcCapBits
  | .idxCap => s.answerRead s.params.idxCapBits
  | .reserved => s.answerRead 0

/-- A dropped write: OVR <- 1 and no other change (rule R252). -/
def State.dropWrite (s : State) : State := { s with status := s.status.overrun }

/-- A write to CMD: accepted, or dropped while BUSY = 1 or ERRV = 1 (rules R24, R250, R252). -/
def writeCmd (v : Word) (s : State) : State :=
  if s.status.busy || s.status.errv then s.dropWrite
  else { s with cmd := v, status := s.status.accept }

/-- A write to ARG0: taken, or dropped while BUSY = 1 (rules R25, R252). -/
def writeArg0 (v : Word) (s : State) : State :=
  if s.status.busy then s.dropWrite else { s with arg0 := v }

/-- A write to ARG1: taken, or dropped while BUSY = 1 (rules R25, R252). -/
def writeArg1 (v : Word) (s : State) : State :=
  if s.status.busy then s.dropWrite else { s with arg1 := v }

/-- A write to CTRL: bit 0 = 1 is the soft reset, at any time (rules R22, R241). -/
def writeCtrl (v : Word) (s : State) : State := if v.getLsbD 0 then s.resetBlock else s

/-- A host write; one to a read-only or reserved register is ignored (rule R30). -/
def hostWrite (r : WindowReg) (v : Word) (s : State) : State :=
  match r with
  | .ctrl => writeCtrl v s
  | .status => s
  | .cmd => writeCmd v s
  | .arg0 => writeArg0 v s
  | .arg1 => writeArg1 v s
  | .res0 => s
  | .res1 => s
  | .idxN => s
  | .idxGeom => s
  | .srcCap => s
  | .idxCap => s
  | .reserved => s

/-- One host access (rules R51, R52); an access outside the interface is refused (rule R225). -/
def hostAccess (a : HostAccess) (s : State) : Answer :=
  match windowOffset s.params.base a with
  | none => .refused .hostAccessOutsideInterface
  | some offset =>
    match a.op with
    | .read => .next (hostRead (WindowReg.at offset) s)
    | .write v => .next (hostWrite (WindowReg.at offset) v s)

end Sys2Proof.Machine
end

