-- ==== Sys2Proof/Machine/Step.lean ====
section
/-! DEFINITION. One step of the machine: the next event of the total order of rule R62. -/

namespace Sys2Proof.Machine

/-- The step: the first event of the agenda happens. With no event left the engine has the turn, so
a pending command completes (rule R255) and an idle block stays as it is (rules R224, R256). -/
def step (s : State) : Host.Outcome State Fault Refusal :=
  match s.agenda with
  | [] => engineTurn s
  | .host a :: rest => hostAccess a { s with agenda := rest }
  | .engine :: rest => engineTurn { s with agenda := rest }
  | .hardwareReset :: rest => .next (State.resetBlock { s with agenda := rest })

/-- The state in which the command word w has been accepted (CMD holds it and BUSY = 1, rule R250)
and the engine has the next turn, so that the next step runs exactly that command. -/
def State.withFetchWord (s : State) (nbits w : Nat) : State :=
  { s with
    cmd := toWord (w % 2 ^ nbits)
    status := s.status.accept
    agenda := .engine :: s.agenda }

end Sys2Proof.Machine
end

