-- ==== Sys2Proof/Machine/Macros.lean ====
section
/-! DEFINITION. The host macros of the command mnemonics (rules R83, R84, R244): the register accesses
a mnemonic expands to, and the pseudo-instructions. They are the host's program, not state of the
block. -/

namespace Sys2Proof.Machine

/-- `wr REG, v` at an offset of the window (rule R83). -/
def hostWr (base offset : Nat) (v : Word) : HostAccess := ⟨base + offset, 8, .write v⟩

/-- `rd REG` at an offset of the window (rule R83). -/
def hostRd (base offset : Nat) : HostAccess := ⟨base + offset, 8, .read⟩

/-- The writes of a command's macro: "the ARG writes of rule R80, then one CMD write of the word rule
R78 selects" (rule R84). After them the host polls STATUS. -/
def macroWrites (base : Nat) (i : Instr) (a0 a1 : Word) : List HostAccess :=
  (if i.readsArg0 then [hostWr base 0x18 a0] else []) ++
    (if i.readsArg1 then [hostWr base 0x20 a1] else []) ++ [hostWr base 0x10 (encode i)]

/-- The reads that end a macro once BUSY = 0: RES0 where the mnemonic yields it, then RES1 for ENCODE
(rule R84). -/
def macroReads (base : Nat) (i : Instr) : List HostAccess :=
  (if i.writesRes0 then [hostRd base 0x28] else []) ++
    if i.writesRes1 then [hostRd base 0x30] else []

/-- `rank b, i` is `rank1 i` when b = 1 and `rank0 i` when b = 0 (rule R84). -/
def rankPseudo (b : Bool) : Instr := if b then .rank1 else .rank0

/-- `getw bs, i`: the smallest width of at least bs, on the default container SRC (rules R83, R84);
the widest for a bs above 64, which then fails with INVALID_BITSIZE (assumption 13). -/
def getwPseudo (bs : Nat) : Instr :=
  if bs ≤ 8 then .get8 bs .src
  else if bs ≤ 16 then .get16 bs .src
  else if bs ≤ 32 then .get32 bs .src
  else .get64 bs .src

/-- `setw bs, i, v` (rule R84). -/
def setwPseudo (bs : Nat) : Instr :=
  if bs ≤ 8 then .set8 bs
  else if bs ≤ 16 then .set16 bs
  else if bs ≤ 32 then .set32 bs
  else .set64 bs

/-- `appendw bs, v` (rule R84). -/
def appendwPseudo (bs : Nat) : Instr :=
  if bs ≤ 8 then .append8 bs
  else if bs ≤ 16 then .append16 bs
  else if bs ≤ 32 then .append32 bs
  else .append64 bs

end Sys2Proof.Machine
end

