-- ==== Sys2Proof/Safety.lean ====
section
/-! DEFINITION. The terms claims use: the invariant of the machine, what of a state a host can
observe, and what it means that IDX holds the index of a bit sequence. -/

namespace Sys2Proof.Machine

/-! ### The invariant -/

/-- A container within its capacity: canonical bytes, a length within the capacity, and no bit set
at or past the capacity (rule R34). -/
def Container.legal (c : Container) (cap : Nat) : Prop :=
  c.bytes.wf = true ∧ c.len.toNat ≤ cap ∧ ∀ p, cap ≤ p → c.bit p = false

/-- The error fields: ERRCODE is 0 exactly while ERRV = 0 and never above 7 (rules R23, R210), and no
command is pending in the error state (rules R213, R217). -/
def Status.legal (st : Status) : Prop :=
  (st.errcode = 0 ↔ st.errv = false) ∧ st.errcode.toNat ≤ 7 ∧ (st.errv = true → st.busy = false)

/-- A geometry with the legal values of rule R28, its field sizes as rules R182 to R184 give them. -/
def Geometry.legal (g : Geometry) : Prop :=
  1 ≤ g.b ∧ g.b ≤ 64 ∧ 2 ≤ g.s ∧ g.s ≤ 255 ∧ g.n < 2 ^ 64 ∧
    g.cfs = bw g.b ∧ g.ofs = bw (choose g.b (g.b / 2)) ∧ g.crfs = bw g.n

/-- The registers that describe the index agree with each other and with IDX.len (rules R27, R28,
R188); before the first BUILD they hold their reset values. -/
def State.indexLegal (s : State) : Prop :=
  (s.status.built = false → s.idxN = 0 ∧ s.idxGeom = 0 ∧ s.idx.len = 0) ∧
    (s.status.built = true →
      s.geometry.legal ∧ s.idxGeom = s.geometry.word ∧ s.idx.len.toNat = s.geometry.cap)

/-- The invariant of the machine; BASE is "aligned to 0x100" (rule R5). -/
def State.Inv (s : State) : Prop :=
  s.src.legal s.params.srcCapBits.toNat ∧ s.idx.legal s.params.idxCapBits.toNat ∧
    s.status.legal ∧ s.indexLegal ∧ s.params.base % 0x100 = 0

/-! ### What can be observed -/

/-- The same length and the same bits below it: the bits at and past the length are "unspecified and
must not be relied upon by observers" (rule R35). -/
def Container.sameBits (c d : Container) : Prop :=
  c.len = d.len ∧ ∀ p, p < c.len.toNat → c.bit p = d.bit p

/-- Two states that differ in unobservable container bits alone. -/
def State.sameObservable (s t : State) : Prop :=
  t = { s with src := t.src, idx := t.idx } ∧ s.src.sameBits t.src ∧ s.idx.sameBits t.idx

/-- Two answers that differ in unobservable container bits alone. -/
def Answer.sameObservable : Answer → Answer → Prop
  | .next s, .next t => s.sameObservable t
  | .fault f, .fault g => f = g
  | .refused r, .refused q => r = q
  | _, _ => False

/-! ### Completion, errors and resets -/

/-- BUSY <- 0, and no other change (rule R251). -/
def State.idle (s : State) : State := { s with status := { s.status with busy := false } }

/-- The error latch of rule R212 with a code of rule R210, and no other change. -/
def State.latched (s : State) (code : BitVec 4) : State :=
  { s with status := { s.status with errcode := code, errv := true, busy := false } }

/-- The next event resets the block: the hardware reset, or a 64-bit host write to CTRL with bit 0
set (rules R240, R241). -/
def State.resets (s : State) : Prop :=
  (∃ rest, s.agenda = .hardwareReset :: rest) ∨
    ∃ v rest, s.agenda = .host ⟨s.params.base, 8, .write v⟩ :: rest ∧ v.getLsbD 0 = true

/-- The next step is the engine's, with a command pending. -/
def State.enginesTurn (s : State) : Prop :=
  s.status.busy = true ∧ (s.agenda = [] ∨ ∃ rest, s.agenda = .engine :: rest)

/-- The state the engine's step starts from: its turn is taken off the agenda. -/
def State.turnTaken (s : State) : State := { s with agenda := s.agenda.tail }

/-! ### The index of a bit sequence -/

/-- The number of 1 bits of B at positions below i: rank₁(i) (rules R14, R193). -/
def onesBelow (B : Nat → Bool) (i : Nat) : Nat := (List.range i).countP B

/-- V_j, the raw value of block j of B[0, n), zeros past n (rules R185, R187). -/
def blockValue (B : Nat → Bool) (n b j : Nat) : Nat :=
  ∑ t ∈ Finset.range b, if j * b + t < n ∧ B (j * b + t) = true then 2 ^ t else 0

/-- The contents of IDX that rule R187 gives for the sequence B: every header, class field and
offset field. -/
def Geometry.holds (g : Geometry) (idx : Container) (B : Nat → Bool) : Prop :=
  (∀ k, k < g.supers → idx.memRead (g.hdr k) g.crfs = onesBelow B (k * g.s * g.b)) ∧
    ∀ j, j < g.blocks →
      idx.memRead (g.cls j) g.cfs = popcount g.b (blockValue B g.n g.b j) ∧
        idx.memRead (g.off j) g.ofs = (encodeBlock g.b (blockValue B g.n g.b j)).2

/-- A built index over B: STATUS.BUILT, registers that agree with IDX, and the contents of rule
R187. -/
def State.indexes (s : State) (B : Nat → Bool) : Prop :=
  s.status.built = true ∧ s.indexLegal ∧ s.geometry.holds s.idx B

/-! ### Illegal command words -/

/-- The conditions of rule R79 under which a word raises ILLEGAL_COMMAND, slice by slice. -/
def illegalWord (w : Word) : Prop :=
  let op := w.extractLsb 7 0
  w.extractLsb 63 32 ≠ 0 ∨
  (op = 0x01 ∧ w.extractLsb 31 8 ≠ 0) ∨
  (op = 0x02 ∧ w.extractLsb 31 19 ≠ 0) ∨
  (op = 0x03 ∧ w.extractLsb 31 18 ≠ 0) ∨
  (op = 0x04 ∧ w.extractLsb 31 18 ≠ 0) ∨
  (op = 0x05 ∧ (w.extractLsb 31 19 ≠ 0 ∨ w.extractLsb 17 8 ≠ 0)) ∨
  (op = 0x10 ∧ w.extractLsb 31 24 ≠ 0) ∨
  (op = 0x11 ∧ w.extractLsb 31 9 ≠ 0) ∨
  ((op = 0x20 ∨ op = 0x21) ∧ w.extractLsb 31 8 ≠ 0) ∨
  ((op = 0x22 ∨ op = 0x23 ∨ op = 0x24) ∧ w.extractLsb 31 16 ≠ 0) ∨
  (op ≠ 0x01 ∧ op ≠ 0x02 ∧ op ≠ 0x03 ∧ op ≠ 0x04 ∧ op ≠ 0x05 ∧ op ≠ 0x10 ∧ op ≠ 0x11 ∧
    op ≠ 0x20 ∧ op ≠ 0x21 ∧ op ≠ 0x22 ∧ op ≠ 0x23 ∧ op ≠ 0x24)

end Sys2Proof.Machine
end

