-- ==== Sys2Proof/Certificates/Slice0/Obligations.lean ====
section
/-! DEFINITION. The statements for the provers, each formalising rules of the spec. Where a statement
asks that a container's bytes are in canonical form (`bytes.wf`) or that the invariant holds, that
rules out states no run reaches: `StepKeepsTheInvariant` and `ResetMeetsTheInvariant` state so. The
fields `agenda`, `readData` and `draws` are the model's own (assumptions 4, 5 and 1): where a
statement gives a whole next state, what it says of them is the model's, not the spec's. -/

namespace Sys2Proof.Machine

/-- The width W of a container command, its word with BS = 0 and SEL = 0, and the command, for the
four widths of an operation (rules R72, R78). -/
abbrev WidthRow (α : Type) := Nat × Nat × α

/-- GET8 to GET64 (rules R122 to R125). -/
def getRows : List (WidthRow (Nat → Sel → Instr)) :=
  [(8, 0x02, .get8), (16, 0x10002, .get16), (32, 0x20002, .get32), (64, 0x30002, .get64)]

/-- SET8 to SET64 (rules R131 to R134). -/
def setRows : List (WidthRow (Nat → Instr)) :=
  [(8, 0x03, .set8), (16, 0x10003, .set16), (32, 0x20003, .set32), (64, 0x30003, .set64)]

/-- APPEND8 to APPEND64 (rules R141 to R144). -/
def appendRows : List (WidthRow (Nat → Instr)) :=
  [(8, 0x04, .append8), (16, 0x10004, .append16), (32, 0x20004, .append32),
    (64, 0x30004, .append64)]

/-- SEL as the number the word holds (rule R72). -/
def selNumber : Sel → Nat
  | .src => 0
  | .idx => 1

/-- The offset of rule R160 in closed form: each set bit p adds C(b − p − 1, the ones from p on). -/
def offsetOf (b V : Nat) : Nat :=
  ∑ p ∈ Finset.range b,
    if V.testBit p then
      (b - p - 1).choose ((List.range b).countP fun q => decide (p ≤ q) && V.testBit q)
    else 0

/-- The class of rule R160: the 1 bits of a b-bit block. -/
def classOf (b V : Nat) : Nat := (List.range b).countP fun p => V.testBit p

/-- The b-bit block V read backwards (rule R161). -/
def reversed (b V : Nat) : Nat :=
  ∑ p ∈ Finset.range b, if V.testBit p then 2 ^ (b - 1 - p) else 0

/-- The host accesses offset `off` of the window with a 64-bit access. -/
def State.facesAccess (s : State) (off : Nat) (op : HostOp) (rest : List Event) : Prop :=
  s.agenda = .host ⟨s.params.base + off, 8, op⟩ :: rest

end Sys2Proof.Machine

open Sys2Proof Sys2Proof.Machine

/-! ### Encoding -/

/-- Every well-formed command, at every value of its fields, is read back from its word
(rules R70 to R79). -/
def Obligations.DecodeReadsBackEncode : Prop :=
  ∀ i : Instr, i.wellFormed = true → decode (encode i) = some i

/-- A word that decodes is the one encoding of what it decodes to, and that command is well-formed
(rules R70 to R79): no bit of a legal word is dropped. -/
def Obligations.EncodeReadsBackDecode : Prop :=
  ∀ (w : Word) (i : Instr), decode w = some i → i.wellFormed = true ∧ encode i = w

/-- Rule R79: on the engine's step, a latched word that meets one of the listed conditions raises
ILLEGAL_COMMAND (code 4) with no other effect, and any other word runs the command it decodes to. -/
def Obligations.IllegalWordsRaiseIllegalCommand : Prop :=
  ∀ s : State, s.enginesTurn →
    (illegalWord s.cmd → step s = .next (s.turnTaken.latched 4)) ∧
    (¬ illegalWord s.cmd → ∃ i, decode s.cmd = some i ∧ step s = exec i s.turnTaken)

/-- A word that decodes matches its own row of the opcode table (rule R78), and no other row. -/
def Obligations.DecodedWordMatchesOneTableRow : Prop :=
  ∀ (w : Word) (i : Instr), decode w = some i →
    w &&& (tableRow i).mask = (tableRow i).pattern ∧
      ∀ j : Instr, w &&& (tableRow j).mask = (tableRow j).pattern → tableRow j = tableRow i

/-- Words written out in the spec decode to the commands they stand for (rules R84, R122, R131,
R141, R150, R190, R196, R112, R170, R171). -/
def Obligations.WordsOfTheSpecDecode : Prop :=
  decode 0x403 = some (.set8 4) ∧ decode 0x402 = some (.get8 4 .src) ∧
  decode 0x61A02 = some (.get32 26 .idx) ∧ decode 0x304 = some (.append8 3) ∧
  decode 0x40005 = some (.length .idx) ∧ decode 0x20410 = some (.build 4 2) ∧
  decode 0x111 = some .rank1 ∧ decode 0x11 = some .rank0 ∧ decode 0x20 = some .choose ∧
  decode 0x322 = some (.popcount 3) ∧ decode 0x423 = some (.encode 4) ∧
  decode 0x824 = some (.decode 8) ∧ decode 0x40103 = none ∧ decode 0x100000002 = none

/-! ### Steps -/

/-- On the engine's turn with a command pending, the step is the command CMD decodes to, run on the
state with the turn taken off the agenda (rule R251). -/
def Obligations.StepRunsThePendingCommand : Prop :=
  ∀ (s : State) (i : Instr), s.enginesTurn → decode s.cmd = some i → step s = exec i s.turnTaken

/-- While BUSY = 0 the engine has no step: a turn offered to it changes nothing, and with no event to
come the block stays as it is (rules R251, R256, R224). -/
def Obligations.IdleEngineHasNoStep : Prop :=
  ∀ s : State, s.status.busy = false →
    (∀ rest, s.agenda = .engine :: rest → step s = .next { s with agenda := rest }) ∧
    (s.agenda = [] → step s = .next s)

/-- The macro of a command (rules R84, R244): in the idle block without error, the writes the mnemonic
expands to, followed by the engine's step, run the command of the word on the operands it reads. -/
def Obligations.MacroRunsItsCommand : Prop :=
  ∀ (s : State) (i : Instr) (a0 a1 : Word) (rest : List Event),
    s.status.busy = false → s.status.errv = false → i.wellFormed = true →
    s.agenda = (macroWrites s.params.base i a0 a1).map .host ++ .engine :: rest →
    Host.Core.run core ((macroWrites s.params.base i a0 a1).length + 1) s =
      exec i { s with
        arg0 := if i.readsArg0 then a0 else s.arg0
        arg1 := if i.readsArg1 then a1 else s.arg1
        cmd := encode i, agenda := rest, status := { s.status with busy := true } }

/-- A pending command completes unless a reset intervenes (rules R251, R255): when the events to come
are no hardware reset, no soft reset and only accesses of the interface, then after at most as many
steps as there are events the engine has its turn, with nothing changed but OVR and what the host
holds, and that turn runs the pending command (or, for an illegal word, latches ILLEGAL_COMMAND) and
leaves BUSY = 0. The bound is the model's: its agenda is finite (assumption 4). -/
def Obligations.PendingCommandCompletes : Prop :=
  ∀ s : State, s.status.busy = true → Event.hardwareReset ∉ s.agenda →
    (∀ a, Event.host a ∈ s.agenda → windowOffset s.params.base a ≠ none) →
    (∀ v, Event.host ⟨s.params.base, 8, .write v⟩ ∈ s.agenda → v.getLsbD 0 = false) →
    ∃ k u t, k ≤ s.agenda.length ∧ Host.Core.run core k s = .next u ∧ u.enginesTurn ∧
      u = { s with
        agenda := u.agenda, readData := u.readData, draws := u.draws
        status := { s.status with ovr := u.status.ovr } } ∧
      Host.Core.run core (k + 1) s = .next t ∧ t.status.busy = false ∧
      match decode s.cmd with
      | some i => exec i u.turnTaken = .next t
      | none => t = u.turnTaken.latched 4

/-! ### The register window -/

/-- A 64-bit read at a register's offset, in an idle block, answers the register and changes nothing
else (rules R21, R22, R24 to R29). That RES0, RES1, IDX_N and IDX_GEOM answer the register whenever
BUSY = 0, even before the host has polled STATUS, is the model's reading of rules R62 and R253
(assumption 19): rule R63, by its letter, calls such a read unspecified. -/
def Obligations.IdleReadsAnswerTheRegister : Prop :=
  ∀ (s : State) (rest : List Event), s.status.busy = false →
    ∀ r ∈ [(0x00, (0 : Word)), (0x10, s.cmd), (0x18, s.arg0), (0x20, s.arg1), (0x28, s.res0),
      (0x30, s.res1), (0x38, s.idxN), (0x40, s.idxGeom), (0x48, s.params.srcCapBits),
      (0x50, s.params.idxCapBits)],
    s.facesAccess r.1 .read rest →
    step s = .next { s with agenda := rest, readData := r.2 }

/-- A read of STATUS answers BUSY, ERRV, OVR and BUILT in bits 0 to 3, ERRCODE in bits 11:8 and 0 in
every other bit, and changes nothing else (rule R23). -/
def Obligations.StatusReadsItsFields : Prop :=
  ∀ (s : State) (rest : List Event), s.facesAccess 0x08 .read rest →
    ∃ w : Word, step s = .next { s with agenda := rest, readData := w } ∧
      w.getLsbD 0 = s.status.busy ∧ w.getLsbD 1 = s.status.errv ∧ w.getLsbD 2 = s.status.ovr ∧
      w.getLsbD 3 = s.status.built ∧ w.extractLsb 7 4 = 0 ∧ w.extractLsb 11 8 = s.status.errcode ∧
      w.extractLsb 63 12 = 0

/-- Rule R253: while BUSY = 1, a read of RES0, RES1, IDX_N or IDX_GEOM answers a fresh free value,
whatever the register holds, and a read of any other register its defined value. The free value is
`Config.freeWord` at the count of draws, about which nothing is known. -/
def Obligations.BusyReadsOfResultsAreFree : Prop :=
  ∀ (s : State) (rest : List Event), s.status.busy = true →
    (∀ off ∈ [0x28, 0x30, 0x38, 0x40], s.facesAccess off .read rest →
      step s = .next { s with
        agenda := rest, readData := Config.freeWord s.draws, draws := s.draws + 1 }) ∧
    (∀ r ∈ [(0x00, (0 : Word)), (0x08, s.status.word), (0x10, s.cmd), (0x18, s.arg0),
      (0x20, s.arg1), (0x48, s.params.srcCapBits), (0x50, s.params.idxCapBits)],
      s.facesAccess r.1 .read rest →
      step s = .next { s with agenda := rest, readData := r.2 }) ∧
    (∀ off, 0x58 ≤ off → off ≤ 0xF8 → off % 8 = 0 → s.facesAccess off .read rest →
      step s = .next { s with agenda := rest, readData := 0 })

/-- "no register read has a side effect" (rule R53): a read that is answered changes the value the
host holds and the count of free draws, and nothing of the block. -/
def Obligations.ReadsHaveNoSideEffect : Prop :=
  ∀ (s t : State) (addr size : Nat) (rest : List Event),
    s.agenda = .host ⟨addr, size, .read⟩ :: rest → step s = .next t →
    t = { s with agenda := rest, readData := t.readData, draws := t.draws }

/-- Rule R30: a read of a reserved offset answers 0, and a write to a reserved offset or to a
read-only register is ignored, OVR included. -/
def Obligations.ReservedAndReadOnlyOffsets : Prop :=
  ∀ (s : State) (rest : List Event) (off : Nat) (v : Word),
    (0x58 ≤ off → off ≤ 0xF8 → off % 8 = 0 → s.facesAccess off .read rest →
      step s = .next { s with agenda := rest, readData := 0 }) ∧
    ((0x58 ≤ off ∧ off ≤ 0xF8 ∧ off % 8 = 0) ∨
        off ∈ [0x08, 0x28, 0x30, 0x38, 0x40, 0x48, 0x50] →
      s.facesAccess off (.write v) rest → step s = .next { s with agenda := rest })

/-- Rule R250: a write of w to CMD with BUSY = 0 and ERRV = 0 is accepted in that step, whatever the
word is, and nothing else changes; an illegal word so accepted fails with ILLEGAL_COMMAND (code 4) on
the engine's step. -/
def Obligations.CommandWriteIsAccepted : Prop :=
  ∀ (s : State) (rest : List Event) (w : Word),
    s.status.busy = false → s.status.errv = false → s.facesAccess 0x10 (.write w) rest →
    step s = .next { s with agenda := rest, cmd := w, status := { s.status with busy := true } } ∧
    ∀ t, step s = .next t → illegalWord w → t.enginesTurn →
      step t = .next (t.turnTaken.latched 4)

/-- The dropped writes of rule R252 change nothing but OVR: CMD, ARG0 and ARG1 while BUSY = 1, and CMD
while ERRV = 1. -/
def Obligations.DroppedWritesSetOvr : Prop :=
  ∀ (s : State) (rest : List Event) (v : Word) (off : Nat),
    (off ∈ [0x10, 0x18, 0x20] ∧ s.status.busy = true) ∨ (off = 0x10 ∧ s.status.errv = true) →
    s.facesAccess off (.write v) rest →
    step s = .next { s with agenda := rest, status := { s.status with ovr := true } }

/-- A write to ARG0 or ARG1 while BUSY = 0 sets the register and changes nothing else, in the error
state too (rules R25, R213). -/
def Obligations.OperandWriteIsTaken : Prop :=
  ∀ (s : State) (rest : List Event) (v : Word), s.status.busy = false →
    (s.facesAccess 0x18 (.write v) rest → step s = .next { s with agenda := rest, arg0 := v }) ∧
    (s.facesAccess 0x20 (.write v) rest → step s = .next { s with agenda := rest, arg1 := v })

/-- Rule R241: a write to CTRL with bit 0 = 1 does in its step what the hardware reset of rule R240
does, with a command pending or not, and a pending command is discarded (BUSY is 0 after it, so the
engine has no step); a write with bit 0 = 0 does nothing. -/
def Obligations.ControlWriteResets : Prop :=
  ∀ (s : State) (rest : List Event) (v : Word), s.facesAccess 0x00 (.write v) rest →
    (v.getLsbD 0 = true →
      step s = step { s with agenda := .hardwareReset :: rest } ∧
        ∃ t, step s = .next t ∧ t.status.busy = false) ∧
    (v.getLsbD 0 = false → step s = .next { s with agenda := rest })

/-- Rule R240: the hardware reset sets every register, STATUS field and container length to 0, and
SRC_CAP, IDX_CAP and BASE keep reading their parameters. `State.reset` holds the same values. -/
def Obligations.HardwareResetState : Prop :=
  (∀ (s : State) (rest : List Event), s.agenda = .hardwareReset :: rest →
    ∃ t, step s = .next t ∧ t.cmd = 0 ∧ t.arg0 = 0 ∧ t.arg1 = 0 ∧ t.res0 = 0 ∧ t.res1 = 0 ∧
      t.idxN = 0 ∧ t.idxGeom = 0 ∧ t.status = ⟨false, false, false, false, 0⟩ ∧
      t.src.len = 0 ∧ t.idx.len = 0 ∧ t.params = s.params) ∧
  (State.reset.cmd = 0 ∧ State.reset.arg0 = 0 ∧ State.reset.arg1 = 0 ∧ State.reset.res0 = 0 ∧
    State.reset.res1 = 0 ∧ State.reset.idxN = 0 ∧ State.reset.idxGeom = 0 ∧
    State.reset.status = ⟨false, false, false, false, 0⟩ ∧ State.reset.src.len = 0 ∧
    State.reset.idx.len = 0)

/-- Rule R51: an access that is not 64 bits wide, not at a multiple of 8, or not within
BASE + [0x00, 0xFF] is refused; every other access is answered. -/
def Obligations.OutsideAccessIsRefused : Prop :=
  ∀ (s : State) (a : HostAccess) (rest : List Event), s.agenda = .host a :: rest →
    let admitted := a.size = 8 ∧ ∃ k, k < 0x20 ∧ a.addr = s.params.base + 8 * k
    (¬ admitted → step s = .refused .hostAccessOutsideInterface) ∧
      (admitted → ∃ t, step s = .next t)

/-- The error state is sticky (rule R213): while ERRV = 1 and no command is pending, a step that is
not a reset changes at most OVR, ARG0, ARG1 and what the host holds. -/
def Obligations.ErrorStateIsSticky : Prop :=
  ∀ s t : State, s.status.errv = true → s.status.busy = false → ¬ s.resets → step s = .next t →
    t = { s with
      arg0 := t.arg0, arg1 := t.arg1, status := { s.status with ovr := t.status.ovr }
      agenda := t.agenda, readData := t.readData, draws := t.draws }

/-! ### The container commands -/

/-- NEW (rule R120): its word, any other word of its opcode being illegal; CAPACITY_EXCEEDED past
SRC_CAP_BITS; else the length is ARG0 and every bit below it 0, every bit and byte at or past it as
before, and nothing else changes. -/
def Obligations.NewFollowsItsRule : Prop :=
  decode 0x01 = some .new ∧
  (∀ w : Word, w.extractLsb 7 0 = 0x01 → w ≠ 0x01 → decode w = none) ∧
  ∀ s : State,
    (s.params.srcCapBits.toNat < s.arg0.toNat → exec .new s = .next (s.latched 5)) ∧
    (s.arg0.toNat ≤ s.params.srcCapBits.toNat → s.src.bytes.wf = true →
      ∃ c : Container, exec .new s = .next { s.idle with src := c } ∧
        c.len = s.arg0 ∧
        (∀ p, c.bit p = if p < s.arg0.toNat then false else s.src.bit p) ∧
        ∀ a, s.arg0.toNat ≤ 8 * a → c.bytes.readByte a = s.src.bytes.readByte a)

/-- GET8, GET16, GET32, GET64 (rules R121 to R125): their words; INVALID_BITSIZE, then OUT_OF_RANGE;
else RES0 is the sum of the selected container's bits from ARG0 on, bit ARG0 lowest, and nothing
else changes. -/
def Obligations.GetFollowsItsRule : Prop :=
  ∀ r ∈ getRows, ∀ (bs : Nat) (sel : Sel),
    (bs < 256 → decode (toWord (r.2.1 + bs * 2 ^ 8 + selNumber sel * 2 ^ 18))
      = some (r.2.2 bs sel)) ∧
    ∀ s : State,
      let c := match sel with | .src => s.src | .idx => s.idx
      (bs = 0 ∨ r.1 < bs → exec (r.2.2 bs sel) s = .next (s.latched 2)) ∧
      (1 ≤ bs → bs ≤ r.1 → c.len.toNat < s.arg0.toNat + bs →
        exec (r.2.2 bs sel) s = .next (s.latched 1)) ∧
      (1 ≤ bs → bs ≤ r.1 → s.arg0.toNat + bs ≤ c.len.toNat →
        exec (r.2.2 bs sel) s = .next { s.idle with
          res0 := toWord (∑ k ∈ Finset.range bs, (c.bit (s.arg0.toNat + k)).toNat * 2 ^ k) })

/-- SET8, SET16, SET32, SET64 (rules R130 to R134): their words, those with SEL = 1 being illegal;
INVALID_BITSIZE, then OUT_OF_RANGE; else bits ARG0 to ARG0 + bs − 1 of SRC are the low bits of ARG1,
every other bit, every byte outside the window and the length are as before, and nothing else
changes. -/
def Obligations.SetFollowsItsRule : Prop :=
  ∀ r ∈ setRows, ∀ bs : Nat,
    (bs < 256 → decode (toWord (r.2.1 + bs * 2 ^ 8)) = some (r.2.2 bs) ∧
      decode (toWord (r.2.1 + bs * 2 ^ 8 + 2 ^ 18)) = none) ∧
    ∀ s : State,
      (bs = 0 ∨ r.1 < bs → exec (r.2.2 bs) s = .next (s.latched 2)) ∧
      (1 ≤ bs → bs ≤ r.1 → s.src.len.toNat < s.arg0.toNat + bs →
        exec (r.2.2 bs) s = .next (s.latched 1)) ∧
      (1 ≤ bs → bs ≤ r.1 → s.arg0.toNat + bs ≤ s.src.len.toNat → s.src.bytes.wf = true →
        ∃ c : Container, exec (r.2.2 bs) s = .next { s.idle with src := c } ∧
          c.len = s.src.len ∧
          (∀ p, c.bit p = if s.arg0.toNat ≤ p ∧ p < s.arg0.toNat + bs
            then s.arg1.getLsbD (p - s.arg0.toNat) else s.src.bit p) ∧
          ∀ a, 8 * a + 8 ≤ s.arg0.toNat ∨ s.arg0.toNat + bs ≤ 8 * a →
            c.bytes.readByte a = s.src.bytes.readByte a)

/-- APPEND8, APPEND16, APPEND32, APPEND64 (rules R140 to R144): their words, those with SEL = 1 being
illegal; INVALID_BITSIZE, then CAPACITY_EXCEEDED; else SRC is longer by bs, its new bits are the low
bits of ARG1, every other bit and every byte outside the window are as before, RES0 is the new
length, and nothing else changes. -/
def Obligations.AppendFollowsItsRule : Prop :=
  ∀ r ∈ appendRows, ∀ bs : Nat,
    (bs < 256 → decode (toWord (r.2.1 + bs * 2 ^ 8)) = some (r.2.2 bs) ∧
      decode (toWord (r.2.1 + bs * 2 ^ 8 + 2 ^ 18)) = none) ∧
    ∀ s : State,
      let old := s.src.len.toNat
      (bs = 0 ∨ r.1 < bs → exec (r.2.2 bs) s = .next (s.latched 2)) ∧
      (1 ≤ bs → bs ≤ r.1 → s.params.srcCapBits.toNat < old + bs →
        exec (r.2.2 bs) s = .next (s.latched 5)) ∧
      (1 ≤ bs → bs ≤ r.1 → old + bs ≤ s.params.srcCapBits.toNat → s.src.bytes.wf = true →
        ∃ c : Container,
          exec (r.2.2 bs) s = .next { s.idle with src := c, res0 := toWord (old + bs) } ∧
          c.len.toNat = old + bs ∧
          (∀ p, c.bit p = if old ≤ p ∧ p < old + bs
            then s.arg1.getLsbD (p - old) else s.src.bit p) ∧
          ∀ a, 8 * a + 8 ≤ old ∨ old + bs ≤ 8 * a →
            c.bytes.readByte a = s.src.bytes.readByte a)

/-- LENGTH (rule R150): its words, and RES0 is the selected container's length, with nothing else
changed. -/
def Obligations.LengthFollowsItsRule : Prop :=
  decode 0x05 = some (.length .src) ∧ decode 0x40005 = some (.length .idx) ∧
  ∀ s : State,
    exec (.length .src) s = .next { s.idle with res0 := s.src.len } ∧
    exec (.length .idx) s = .next { s.idle with res0 := s.idx.len }

/-- Rule R151: after a successful SET of v < 2^bs, the GET of the same window returns v. -/
def Obligations.SetThenGetReturnsTheValue : Prop :=
  ∀ p ∈ setRows.zip getRows, ∀ (bs : Nat) (s : State),
    1 ≤ bs → bs ≤ p.1.1 → s.arg0.toNat + bs ≤ s.src.len.toNat → s.arg1.toNat < 2 ^ bs →
    s.src.bytes.wf = true →
    ∃ t u, exec (p.1.2.2 bs) s = .next t ∧ exec (p.2.2.2 bs .src) t = .next u ∧
      t.status.errv = s.status.errv ∧ u.status.errv = s.status.errv ∧ u.res0 = s.arg1

/-- Rule R152: after a SET, the GET of any window disjoint from the one written, of any width, returns
what it returned before. -/
def Obligations.SetKeepsDisjointWindows : Prop :=
  ∀ r ∈ setRows, ∀ r' ∈ getRows, ∀ (bs bs' : Nat) (j : Word) (s t : State),
    1 ≤ bs → bs ≤ r.1 → s.arg0.toNat + bs ≤ s.src.len.toNat → s.src.bytes.wf = true →
    1 ≤ bs' → bs' ≤ r'.1 → j.toNat + bs' ≤ s.src.len.toNat →
    j.toNat + bs' ≤ s.arg0.toNat ∨ s.arg0.toNat + bs ≤ j.toNat →
    exec (r.2.2 bs) s = .next t →
    ∃ u u', exec (r'.2.2 bs' .src) { t with arg0 := j } = .next u ∧
      exec (r'.2.2 bs' .src) { s with arg0 := j } = .next u' ∧
      u.status.errv = s.status.errv ∧ u'.status.errv = s.status.errv ∧ u.res0 = u'.res0

/-- Rule R153: two identical successful SETs leave SRC the same data as one. -/
def Obligations.SetIsIdempotent : Prop :=
  ∀ r ∈ setRows, ∀ (bs : Nat) (s : State),
    1 ≤ bs → bs ≤ r.1 → s.arg0.toNat + bs ≤ s.src.len.toNat → s.src.bytes.wf = true →
    ∃ t u, exec (r.2.2 bs) s = .next t ∧ exec (r.2.2 bs) t = .next u ∧ u.src = t.src

/-- Rule R154: after a successful APPEND of v < 2^bs the length has grown by bs, and the GET at the old
length returns v. -/
def Obligations.AppendThenGetReturnsTheValue : Prop :=
  ∀ p ∈ appendRows.zip getRows, ∀ (bs : Nat) (s : State),
    1 ≤ bs → bs ≤ p.1.1 → s.src.len.toNat + bs ≤ s.params.srcCapBits.toNat →
    s.arg1.toNat < 2 ^ bs → s.src.bytes.wf = true →
    ∃ t u, exec (p.1.2.2 bs) s = .next t ∧ t.src.len.toNat = s.src.len.toNat + bs ∧
      exec (p.2.2.2 bs .src) { t with arg0 := s.src.len } = .next u ∧
      u.status.errv = s.status.errv ∧ u.res0 = s.arg1

/-- Rule R57: GETs of two widths at one in-range window return the same value, a SET of one width
followed by a GET of another returns the low bits written, and a GET64 of 64 bits at position 8k is
the eight bytes from k on, lowest first. -/
def Obligations.WidthsSeeTheSameBits : Prop :=
  (∀ r ∈ getRows, ∀ r' ∈ getRows, ∀ (bs : Nat) (sel : Sel) (s : State),
    1 ≤ bs → bs ≤ r.1 → bs ≤ r'.1 → exec (r.2.2 bs sel) s = exec (r'.2.2 bs sel) s) ∧
  (∀ r ∈ setRows, ∀ r' ∈ getRows, ∀ (bs : Nat) (s : State),
    1 ≤ bs → bs ≤ r.1 → bs ≤ r'.1 → s.arg0.toNat + bs ≤ s.src.len.toNat →
    s.src.bytes.wf = true →
    ∃ t u, exec (r.2.2 bs) s = .next t ∧ exec (r'.2.2 bs .src) t = .next u ∧
      u.res0 = toWord (s.arg1.toNat % 2 ^ bs)) ∧
  ∀ (sel : Sel) (k : Nat) (s : State), s.arg0.toNat = 8 * k →
    8 * k + 64 ≤ (s.container sel).len.toNat →
    exec (.get64 64 sel) s = .next { s.idle with
      res0 := toWord (∑ j ∈ Finset.range 8,
        ((s.container sel).bytes.readByte (k + j)).toNat * 2 ^ (8 * j)) }

/-- Rule R56: word k of width W is its W / 8 bytes in little-endian order. -/
def Obligations.WordsAreLittleEndian : Prop :=
  ∀ (c : Container) (k m : Nat), m ∈ [1, 2, 4, 8] →
    c.memRead (k * (8 * m)) (8 * m)
      = ∑ j ∈ Finset.range m, (c.bytes.readByte (k * m + j)).toNat * 2 ^ (8 * j)

/-! ### The primitives -/

/-- CHOOSE (rule R110): its word; INVALID_OPERAND for n > 64; else RES0 is the exact binomial
coefficient, below 2^61, and nothing else changes. -/
def Obligations.ChooseFollowsItsRule : Prop :=
  decode 0x20 = some .choose ∧
  ∀ s : State,
    (64 < s.arg0.toNat → exec .choose s = .next (s.latched 7)) ∧
    (s.arg0.toNat ≤ 64 →
      exec .choose s = .next { s.idle with res0 := toWord (s.arg0.toNat.choose s.arg1.toNat) } ∧
        s.arg0.toNat.choose s.arg1.toNat < 2 ^ 61)

/-- FLOORLOG2 (rules R100, R111): its word; RES0 is 0 for 0 and else the r with 2^r ≤ ARG0 < 2^(r+1),
and nothing else changes. -/
def Obligations.Floorlog2FollowsItsRule : Prop :=
  decode 0x21 = some .floorlog2 ∧
  ∀ s : State, ∃ r : Nat, exec .floorlog2 s = .next { s.idle with res0 := toWord r } ∧
    r ≤ 63 ∧ (s.arg0.toNat = 0 → r = 0) ∧
    (0 < s.arg0.toNat → 2 ^ r ≤ s.arg0.toNat ∧ s.arg0.toNat < 2 ^ (r + 1))

/-- POPCOUNT (rules R102, R112): its word; INVALID_OPERAND for a width over 64; else RES0 counts the
positions below the width at which ARG0 has a 1, and nothing else changes. -/
def Obligations.PopcountFollowsItsRule : Prop :=
  ∀ wb : Nat, (wb < 256 → decode (toWord (0x22 + wb * 2 ^ 8)) = some (.popcount wb)) ∧
    ∀ s : State,
      (64 < wb → exec (.popcount wb) s = .next (s.latched 7)) ∧
      (wb ≤ 64 → exec (.popcount wb) s = .next { s.idle with
        res0 := toWord ((List.range wb).countP fun k => s.arg0.getLsbD k) })

/-! ### The codec -/

/-- ENCODE (rules R160, R170): its word; INVALID_OPERAND outside 1 ≤ b ≤ 64; else RES0 and RES1 are
the class and the offset of the low b bits of ARG0, and nothing else changes. -/
def Obligations.EncodeFollowsItsRule : Prop :=
  ∀ wb : Nat, (wb < 256 → decode (toWord (0x23 + wb * 2 ^ 8)) = some (.encode wb)) ∧
    ∀ s : State,
      (wb = 0 ∨ 64 < wb → exec (.encode wb) s = .next (s.latched 7)) ∧
      (1 ≤ wb → wb ≤ 64 → exec (.encode wb) s = .next { s.idle with
        res0 := toWord (classOf wb s.arg0.toNat), res1 := toWord (offsetOf wb s.arg0.toNat) } ∧
        offsetOf wb s.arg0.toNat < 2 ^ 61)

/-- DECODE (rule R171): its word; INVALID_OPERAND for a block size outside 1 to 64, a class over b or
an offset not below C(b, class); else RES0 is the block with that class and offset, and nothing else
changes. -/
def Obligations.DecodeFollowsItsRule : Prop :=
  ∀ wb : Nat, (wb < 256 → decode (toWord (0x24 + wb * 2 ^ 8)) = some (.decode wb)) ∧
    ∀ s : State,
      (wb = 0 ∨ 64 < wb ∨ wb < s.arg0.toNat ∨ wb.choose s.arg0.toNat ≤ s.arg1.toNat →
        exec (.decode wb) s = .next (s.latched 7)) ∧
      (1 ≤ wb → wb ≤ 64 → s.arg0.toNat ≤ wb → s.arg1.toNat < wb.choose s.arg0.toNat →
        ∃ V, V < 2 ^ wb ∧ classOf wb V = s.arg0.toNat ∧ offsetOf wb V = s.arg1.toNat ∧
          exec (.decode wb) s = .next { s.idle with res0 := toWord V })

/-- Rule R162 on the commands: the DECODE of what an ENCODE answered gives the block back, and the
ENCODE of what a DECODE answered gives the class and offset back. -/
def Obligations.EncodeAndDecodeAreInverse : Prop :=
  ∀ (wb : Nat) (s : State), 1 ≤ wb → wb ≤ 64 →
    (∃ t u, exec (.encode wb) s = .next t ∧
      exec (.decode wb) { t with arg0 := t.res0, arg1 := t.res1 } = .next u ∧
      u.res0 = toWord (s.arg0.toNat % 2 ^ wb)) ∧
    (s.arg0.toNat ≤ wb → s.arg1.toNat < wb.choose s.arg0.toNat →
      ∃ t u, exec (.decode wb) s = .next t ∧
        exec (.encode wb) { t with arg0 := t.res0 } = .next u ∧
        u.res0 = s.arg0 ∧ u.res1 = s.arg1)

/-- The first sentence of rule R161: for fixed b, encode is a bijection from [0, 2^b) onto the pairs
(c, o) with c ≤ b and o < C(b, c). -/
def Obligations.EncodeIsABijection : Prop :=
  ∀ b : Nat, 1 ≤ b → b ≤ 64 →
    Set.BijOn (encodeBlock b) { V | V < 2 ^ b } { co | co.1 ≤ b ∧ co.2 < b.choose co.1 }

/-- Rule R161: the offset is the rank of the bit-reversed block among the bit-reversed blocks of its
class, in ascending numeric order. -/
def Obligations.OffsetIsTheLexicographicRank : Prop :=
  ∀ b V : Nat, 1 ≤ b → b ≤ 64 → V < 2 ^ b →
    (encodeBlock b V).2 = ((Finset.range (2 ^ b)).filter fun U =>
      classOf b U = classOf b V ∧ reversed b U < reversed b V).card

/-- Rule R164: every class and every offset fits the field the geometry gives it. -/
def Obligations.ClassAndOffsetFitTheirFields : Prop :=
  ∀ n b s V : Nat, 1 ≤ b → b ≤ 64 → V < 2 ^ b →
    (encodeBlock b V).1 ≤ b ∧ b < 2 ^ (Geometry.of n b s).cfs ∧
      (encodeBlock b V).2 < b.choose (encodeBlock b V).1 ∧
      b.choose (encodeBlock b V).1 ≤ b.choose (b / 2) ∧
      b.choose (b / 2) < 2 ^ (Geometry.of n b s).ofs

/-! ### The index -/

/-- Rule R181: the geometry BUILD computes from n, RBS and RSS, with the ranges it and rule R28 give:
the fields' legal values, and an automatic b of at most 31 and s of at most 63. -/
def Obligations.GeometryFollowsItsRule : Prop :=
  ∀ n rbs rss : Nat, n < 2 ^ 64 → rbs ≤ 64 → rss < 256 →
    let g := Geometry.make n rbs rss
    g.n = n ∧
    g.b = (if rbs = 0 then max 1 (Nat.log 2 n / 2) else rbs) ∧
    g.s = (if rss ≤ 1 then max 2 (Nat.log 2 n) else rss) ∧
    g.cfs = Nat.log 2 g.b + 1 ∧
    g.ofs = Nat.log 2 (g.b.choose (g.b / 2)) + 1 ∧
    g.crfs = (if n = 0 then 0 else Nat.log 2 n + 1) ∧
    g.sbs = g.cfs + g.ofs ∧ g.ssbs = g.crfs + g.s * g.sbs ∧
    n ≤ g.blocks * g.b ∧ g.blocks * g.b < n + g.b ∧
    g.blocks ≤ g.supers * g.s ∧ g.supers * g.s < g.blocks + g.s ∧
    g.cap = g.supers * g.crfs + g.blocks * g.sbs ∧
    1 ≤ g.b ∧ g.b ≤ 64 ∧ 2 ≤ g.s ∧ g.s ≤ 255 ∧
    1 ≤ g.cfs ∧ g.cfs ≤ 7 ∧ 1 ≤ g.ofs ∧ g.ofs ≤ 61 ∧ g.crfs ≤ 64 ∧ (g.crfs = 0 ↔ n = 0) ∧
    (rbs = 0 → g.b ≤ 31) ∧ (rss ≤ 1 → g.s ≤ 63)

/-- BUILD (rules R187, R190): its word; INVALID_BLOCK_SIZE for RBS > 64, then CAPACITY_EXCEEDED; else
IDX holds the index of SRC with the length CAP, IDX_N, IDX_GEOM, BUILT and RES0 are written, and
nothing else changes. That every bit of IDX at or past CAP and every byte wholly past it is as before
is the model's inference from rule R190, which names only the bits below CAP (assumption 9). -/
def Obligations.BuildFollowsItsRule : Prop :=
  ∀ rbs rss : Nat, rbs < 256 → rss < 256 →
    decode (toWord (0x10 + rbs * 2 ^ 8 + rss * 2 ^ 16)) = some (.build rbs rss) ∧
    ∀ s : State,
      let g := Geometry.make s.src.len.toNat rbs rss
      (64 < rbs → exec (.build rbs rss) s = .next (s.latched 3)) ∧
      (rbs ≤ 64 → s.params.idxCapBits.toNat < g.cap →
        exec (.build rbs rss) s = .next (s.latched 5)) ∧
      (rbs ≤ 64 → g.cap ≤ s.params.idxCapBits.toNat → s.idx.bytes.wf = true →
        ∃ c : Container,
          exec (.build rbs rss) s = .next { s with
            idx := c, idxN := s.src.len
            idxGeom := toWord
              (g.b ||| g.s <<< 8 ||| g.cfs <<< 16 ||| g.ofs <<< 24 ||| g.crfs <<< 32)
            res0 := toWord g.cap
            status := { s.status with busy := false, built := true } } ∧
          c.len.toNat = g.cap ∧ g.holds c s.src.bit ∧
          (∀ p, g.cap ≤ p → c.bit p = s.idx.bit p) ∧
          ∀ a, g.cap ≤ 8 * a → c.bytes.readByte a = s.idx.bytes.readByte a)

/-- A successful BUILD leaves a state that indexes SRC (rules R187, R190): the premise of the rank
statements is met by every built index. -/
def Obligations.BuildIndexesItsInput : Prop :=
  ∀ (rbs rss : Nat) (s : State), rbs ≤ 64 → rss < 256 →
    (Geometry.make s.src.len.toNat rbs rss).cap ≤ s.params.idxCapBits.toNat →
    s.idx.bytes.wf = true →
    ∃ t, exec (.build rbs rss) s = .next t ∧ t.indexes s.src.bit

/-- Rule R192: BUILD over an empty SRC succeeds, with b = 1 and s = 2 or the requested values, CRFS 0
and CAP 0; that geometry is the one IDX_N and IDX_GEOM then hold, and on the result the ranks at 0
are 0 and any later position is out of range. -/
def Obligations.BuildOfTheEmptySequence : Prop :=
  ∀ (rbs rss : Nat) (s : State), s.src.len = 0 → rbs ≤ 64 → rss < 256 →
    let g := Geometry.make 0 rbs rss
    ∃ t, exec (.build rbs rss) s = .next t ∧
      g.b = (if rbs = 0 then 1 else rbs) ∧ g.s = (if rss ≤ 1 then 2 else rss) ∧
      g.crfs = 0 ∧ g.blocks = 0 ∧ g.supers = 0 ∧ g.cap = 0 ∧
      t.geometry = g ∧ t.idx.len = 0 ∧ t.idxN = 0 ∧
      t.idxGeom = toWord (g.b ||| g.s <<< 8 ||| g.cfs <<< 16 ||| g.ofs <<< 24) ∧
      t.status.built = true ∧ t.status.errv = s.status.errv ∧
      ∀ i ∈ [Instr.rank0, Instr.rank1],
        (∃ u, exec i { t with arg0 := 0 } = .next u ∧ u.status.errv = s.status.errv ∧
          u.res0 = 0) ∧
        ∀ p : Word, p ≠ 0 →
          exec i { t with arg0 := p } = .next (({ t with arg0 := p } : State).latched 1)

/-- RANK0 and RANK1 (rules R195 to R197): their words; NOT_BUILT, then OUT_OF_RANGE; else RES0 is a
number r for RANK1 and ARG0 − r for RANK0, nothing else changes, and r is the number of 1 bits of B
below ARG0 when IDX holds the index of B, for every n, b and s. -/
def Obligations.RankFollowsItsRule : Prop :=
  decode 0x11 = some .rank0 ∧ decode 0x111 = some .rank1 ∧
  ∀ s : State,
    (s.status.built = false →
      exec .rank0 s = .next (s.latched 6) ∧ exec .rank1 s = .next (s.latched 6)) ∧
    (s.status.built = true → s.idxN.toNat < s.arg0.toNat →
      exec .rank0 s = .next (s.latched 1) ∧ exec .rank1 s = .next (s.latched 1)) ∧
    (s.status.built = true → s.arg0.toNat ≤ s.idxN.toNat →
      ∃ r, exec .rank1 s = .next { s.idle with res0 := toWord r } ∧
        exec .rank0 s = .next { s.idle with res0 := toWord (s.arg0.toNat - r) } ∧
        ∀ B, s.indexes B → r = onesBelow B s.arg0.toNat)

/-- Rule R198 on a state that indexes a sequence: the two ranks at i ≤ n sum to i, and from i to i + 1
each grows by 0 or 1. -/
def Obligations.RankIsDualAndMonotone : Prop :=
  ∀ (s : State) (B : Nat → Bool), s.indexes B →
    ∃ zeros ones : Nat → Nat,
      (∀ i, i ≤ s.idxN.toNat →
        exec .rank0 { s with arg0 := toWord i }
          = .next { s.idle with arg0 := toWord i, res0 := toWord (zeros i) } ∧
        exec .rank1 { s with arg0 := toWord i }
          = .next { s.idle with arg0 := toWord i, res0 := toWord (ones i) } ∧
        zeros i + ones i = i) ∧
      ∀ i, i < s.idxN.toNat →
        (zeros (i + 1) = zeros i ∨ zeros (i + 1) = zeros i + 1) ∧
        (ones (i + 1) = ones i ∨ ones (i + 1) = ones i + 1)

/-- Rule R155: NEW, SET and APPEND change neither IDX nor what describes it, and every later RANK
answers what it would have answered before. -/
def Obligations.SrcCommandsKeepTheIndex : Prop :=
  ∀ (i : Instr) (s t : State),
    (i = .new ∨ (∃ bs, ∃ r ∈ setRows, i = r.2.2 bs) ∨ ∃ bs, ∃ r ∈ appendRows, i = r.2.2 bs) →
    exec i s = .next t →
    t.idx = s.idx ∧ t.idxN = s.idxN ∧ t.idxGeom = s.idxGeom ∧ t.status.built = s.status.built ∧
    (s.status.built = true → ∀ q ∈ [Instr.rank0, Instr.rank1], ∀ p : Word,
      p.toNat ≤ s.idxN.toNat →
      ∃ u v, exec q { t with arg0 := p } = .next u ∧ exec q { s with arg0 := p } = .next v ∧
        u.res0 = v.res0)

/-- The index of a sequence stays until a reset or the next BUILD (rules R155, R191): a state that
indexes B does so after every other step. -/
def Obligations.IndexLastsUntilResetOrBuild : Prop :=
  ∀ (s t : State) (B : Nat → Bool), s.indexes B → step s = .next t →
    ¬ s.resets → ¬ (s.enginesTurn ∧ ∃ rbs rss, decode s.cmd = some (.build rbs rss)) →
    t.indexes B

/-! ### Whole-machine rules -/

/-- Every command ends, in success or in the error latch (rules R20, R212): exec always answers a next
state with BUSY = 0, which is the state before with the latch and nothing else changed, or a state
with the error fields as before. -/
def Obligations.EveryCommandEnds : Prop :=
  ∀ (i : Instr) (s : State), ∃ t, exec i s = .next t ∧ t.status.busy = false ∧
    ((∃ e : ErrorKind, t = s.latched e.code) ∨
      (t.status.errv = s.status.errv ∧ t.status.errcode = s.status.errcode ∧
        t.status.ovr = s.status.ovr))

/-- No command writes CMD, ARG0 or ARG1 (rules R25, R211), nor the parameters or the surroundings. -/
def Obligations.CommandsKeepCmdAndOperands : Prop :=
  ∀ (i : Instr) (s t : State), exec i s = .next t →
    t.cmd = s.cmd ∧ t.arg0 = s.arg0 ∧ t.arg1 = s.arg1 ∧ t.params = s.params ∧
      t.agenda = s.agenda ∧ t.readData = s.readData ∧ t.draws = s.draws

/-- The table of rule R80: a command does not read an operand register the table does not list for it
(another value there changes nothing but itself), and does not write a result register the table
does not list. -/
def Obligations.UnlistedRegistersAreNotUsed : Prop :=
  ∀ (i : Instr) (s t : State), exec i s = .next t →
    (i.readsArg0 = false → ∀ v, exec i { s with arg0 := v } = .next { t with arg0 := v }) ∧
    (i.readsArg1 = false → ∀ v, exec i { s with arg1 := v } = .next { t with arg1 := v }) ∧
    (i.writesRes0 = false → t.res0 = s.res0) ∧ (i.writesRes1 = false → t.res1 = s.res1)

/-- Only BUILD writes IDX, IDX_N, IDX_GEOM and BUILT (rules R27, R28, R33, R36), and only NEW, SET and
APPEND write SRC (the SRC row of rule R50; R121, R191, R195): every other command leaves them. -/
def Obligations.OnlyBuildChangesTheIndex : Prop :=
  ∀ (i : Instr) (s t : State), exec i s = .next t →
    ((∀ rbs rss, i ≠ .build rbs rss) →
      t.idx = s.idx ∧ t.idxN = s.idxN ∧ t.idxGeom = s.idxGeom ∧
        t.status.built = s.status.built) ∧
    (i ≠ .new → (∀ bs, ∀ r ∈ setRows, i ≠ r.2.2 bs) → (∀ bs, ∀ r ∈ appendRows, i ≠ r.2.2 bs) →
      t.src = s.src)

/-- The parameters are fixed for a run (rules R5, R39), and SRC_CAP and IDX_CAP with them: no step
changes them. -/
def Obligations.ParametersNeverChange : Prop :=
  ∀ s t : State, step s = .next t → t.params = s.params

/-- "only reset clears them" (rules R23, R33): a step that is not a reset clears none of ERRV, OVR and
BUILT, and changes ERRCODE only as it sets ERRV, and BUILT only as it runs a BUILD. In a state with
ERRV = 1 no command is pending (`Status.legal`, kept by every step). -/
def Obligations.StatusBitsClearOnResetOnly : Prop :=
  ∀ s t : State, s.status.legal → ¬ s.resets → step s = .next t →
    (s.status.errv = true → t.status.errv = true ∧ t.status.errcode = s.status.errcode) ∧
    (s.status.errv = false → t.status.errcode ≠ s.status.errcode → t.status.errv = true) ∧
    (s.status.ovr = true → t.status.ovr = true) ∧
    (s.status.built = true → t.status.built = true) ∧
    (t.status.built ≠ s.status.built →
      s.enginesTurn ∧ ∃ rbs rss, decode s.cmd = some (.build rbs rss))

/-- The invariant of the machine is kept by every step, from every state that meets it: containers
canonical and within their capacities, the error fields legal, IDX and the registers that describe
it in agreement. -/
def Obligations.StepKeepsTheInvariant : Prop :=
  ∀ s t : State, s.Inv → step s = .next t → t.Inv

/-- The reset state meets the invariant. -/
def Obligations.ResetMeetsTheInvariant : Prop := State.reset.Inv

/-- "So the unspecified bits are never observed" (rule R35): two states that meet the invariant and
differ in container bits at or past the lengths alone answer a step alike, and the two results again
differ in such bits alone. For a read of RES0, RES1, IDX_N or IDX_GEOM while BUSY = 1, that the two
states answer the same free value is the model's choice and not rule R253's: the draw is
`Config.freeWord` at the count of draws, which the two states share (assumption 1). -/
def Obligations.UnspecifiedBitsAreNeverObserved : Prop :=
  ∀ s t : State, s.Inv → t.Inv → s.sameObservable t →
    Answer.sameObservable (step s) (step t)
end

