-- ==== Sys2Proof/Laws/Primitives.lean ====
section
/-! SUPPORT. What the primitives of rules R9 and R100 to R102 compute: bw between two powers of two,
choose as the binomial coefficient, popcount as a count of bits. -/

namespace Sys2Proof.Machine

/-! ### bw and floorLog2 -/

theorem bitWidth_spec (fuel x : Nat) (h : x < 2 ^ fuel) :
    x < 2 ^ bitWidth fuel x ∧ (x ≠ 0 → 2 ^ (bitWidth fuel x - 1) ≤ x) ∧ bitWidth fuel x ≤ fuel := by
  induction fuel generalizing x with
  | zero => simp [bitWidth]; omega
  | succ fuel ih =>
    by_cases hx : x = 0
    · simp [bitWidth, hx]
    · obtain ⟨h1, h2, h3⟩ := ih (x / 2) (by rw [Nat.pow_succ] at h; omega)
      rw [bitWidth, if_neg hx]
      refine ⟨by rw [Nat.pow_succ]; omega, fun _ => ?_, by omega⟩
      rw [Nat.add_sub_cancel]
      by_cases hx2 : x / 2 = 0
      · have : bitWidth fuel (x / 2) = 0 := by rw [hx2]; cases fuel <;> rfl
        rw [this]; omega
      · have h2 := h2 hx2
        have h4 : bitWidth fuel (x / 2) ≠ 0 := by
          intro h0; rw [h0] at h1; omega
        obtain ⟨w, hw⟩ := Nat.exists_eq_succ_of_ne_zero h4
        rw [hw] at h2 ⊢
        rw [Nat.succ_sub_one] at h2
        rw [Nat.pow_succ]; omega

/-- A u64 fits in bw of it bits. -/
theorem lt_two_pow_bw {x : Nat} (h : x < 2 ^ 64) : x < 2 ^ bw x := (bitWidth_spec 64 x h).1

theorem two_pow_bw_le {x : Nat} (h : x < 2 ^ 64) (hx : x ≠ 0) : 2 ^ (bw x - 1) ≤ x :=
  (bitWidth_spec 64 x h).2.1 hx

theorem bw_le {x : Nat} (h : x < 2 ^ 64) : bw x ≤ 64 := (bitWidth_spec 64 x h).2.2

theorem bw_ne_zero {x : Nat} (h : x < 2 ^ 64) (hx : x ≠ 0) : bw x ≠ 0 := by
  intro h0
  have := lt_two_pow_bw h
  rw [h0] at this
  omega

theorem bw_mono_bound {x k : Nat} (h : x < 2 ^ 64) (hk : x < 2 ^ k) : bw x ≤ k := by
  by_cases hx : x = 0
  · subst hx; simp [bw, bitWidth]
  · have h1 := two_pow_bw_le h hx
    by_contra hlt
    have : 2 ^ k ≤ 2 ^ (bw x - 1) := Nat.pow_le_pow_right (by decide) (by omega)
    omega

theorem floorLog2_add_one {x : Nat} (h : x < 2 ^ 64) (hx : x ≠ 0) : floorLog2 x + 1 = bw x := by
  have := bw_ne_zero h hx
  rw [floorLog2, if_neg hx]; omega

/-! ### choose -/

theorem chooseLoop_eq (n i : Nat) (h : i ≤ n) : chooseLoop n i = n.choose i := by
  induction i with
  | zero => simp [chooseLoop]
  | succ i ih =>
    rw [chooseLoop, ih (by omega)]
    have := Nat.choose_succ_right_eq n i
    rw [← this]
    exact Nat.mul_div_cancel _ (by omega)

/-- The multiplicative form computes the binomial coefficient (rule R101). -/
theorem choose_eq (n k : Nat) : choose n k = n.choose k := by
  unfold choose
  split
  · exact (Nat.choose_eq_zero_of_lt (by assumption)).symm
  · have hk : k ≤ n := by omega
    rw [chooseLoop_eq n _ (by omega)]
    rcases Nat.le_total k (n - k) with h | h
    · rw [Nat.min_eq_left h]
    · rw [Nat.min_eq_right h, Nat.choose_symm hk]

/-! ### popcount -/

theorem popcount_le (w v : Nat) : popcount w v ≤ w := by
  induction w generalizing v with
  | zero => simp [popcount]
  | succ w ih => have := ih (v / 2); rw [popcount]; omega

/-- popcount(width, v) counts the positions below width that hold a 1 (rule R102). -/
theorem popcount_eq_countP (w v : Nat) :
    popcount w v = (List.range w).countP fun k => v.testBit k := by
  induction w generalizing v with
  | zero => rfl
  | succ w ih =>
    rw [popcount, ih, List.range_succ_eq_map, List.countP_cons, List.countP_map]
    simp only [Function.comp_def, Nat.testBit_succ, Nat.testBit_zero, decide_eq_true_eq]
    rw [Nat.add_comm]
    congr 1
    have : v % 2 < 2 := Nat.mod_lt _ (by decide)
    split <;> omega

/-- Only the low `width` bits matter. -/
theorem popcount_congr {w v v' : Nat} (h : ∀ k < w, v.testBit k = v'.testBit k) :
    popcount w v = popcount w v' := by
  rw [popcount_eq_countP, popcount_eq_countP]
  exact List.countP_congr fun k hk => by rw [h k (List.mem_range.mp hk)]

end Sys2Proof.Machine
end

