-- ==== Sys2Proof/Laws/Codec.lean ====
section
/-! SUPPORT. The two scans of the block codec (rules R160, R162): the offset as a function of the
block alone, its bound, and that each scan undoes the other. -/

namespace Sys2Proof.Machine

theorem popcount_succ (m V : Nat) : popcount (m + 1) V = V % 2 + popcount m (V / 2) := rfl

theorem popcount_mod (m V : Nat) : popcount m (V % 2 ^ m) = popcount m V :=
  popcount_congr fun k hk => by rw [Nat.testBit_mod_two_pow]; simp [hk]

theorem popcount_eq_zero {m V : Nat} (h : popcount m V = 0) : V % 2 ^ m = 0 := by
  induction m generalizing V with
  | zero => simp [Nat.mod_one]
  | succ m ih =>
    rw [popcount_succ] at h
    have := ih (V := V / 2) (by omega)
    rw [Nat.pow_succ, Nat.mul_comm, Nat.mod_mul]
    omega

/-- The offset the scan of rule R160 gives the last m positions of a block. -/
def scanOffset : Nat → Nat → Nat
  | 0, _ => 0
  | m + 1, V =>
    if V % 2 = 1 then m.choose (popcount (m + 1) V) + scanOffset m (V / 2)
    else scanOffset m (V / 2)

theorem scanOffset_succ (m V : Nat) :
    scanOffset (m + 1) V
      = (if V % 2 = 1 then m.choose (popcount (m + 1) V) else 0) + scanOffset m (V / 2) := by
  rw [scanOffset]
  split
  · rfl
  · rw [Nat.zero_add]

/-- The scan of rule R160, started with the count of ones it will meet. -/
theorem encodeScan_eq (m V off : Nat) :
    encodeScan m V (popcount m V) off = off + scanOffset m V := by
  induction m generalizing V off with
  | zero => rfl
  | succ m ih =>
    rw [encodeScan, scanOffset]
    split
    · rename_i h
      rw [show popcount (m + 1) V - 1 = popcount m (V / 2) by rw [popcount_succ]; omega, ih,
        choose_eq, Nat.add_assoc]
    · rename_i h
      rw [show popcount (m + 1) V = popcount m (V / 2) by rw [popcount_succ]; omega, ih]

/-- encode(b, V) = (popcount, offset) (rule R160). -/
theorem encodeBlock_eq (b V : Nat) : encodeBlock b V = (popcount b V, scanOffset b V) := by
  simp [encodeBlock, encodeScan_eq]

/-- "0 ≤ o < binom(b, c)" (rule R161). -/
theorem scanOffset_lt (m V : Nat) : scanOffset m V < m.choose (popcount m V) := by
  induction m generalizing V with
  | zero => simp [scanOffset, popcount]
  | succ m ih =>
    have h := ih (V / 2)
    rw [scanOffset]
    split
    · rename_i h1
      rw [popcount_succ, h1, Nat.add_comm 1, Nat.choose_succ_succ']
      omega
    · rename_i h1
      rw [popcount_succ, show V % 2 = 0 by omega, Nat.zero_add]
      exact h.trans_le (Nat.choose_le_choose _ (Nat.le_succ m))

/-- The scan of rule R162 undoes the scan of rule R160. -/
theorem unrankScan_scanOffset (m V : Nat) :
    unrankScan m (popcount m V) (scanOffset m V) = V % 2 ^ m := by
  induction m generalizing V with
  | zero => simp [unrankScan, Nat.mod_one]
  | succ m ih =>
    rw [unrankScan]
    by_cases h0 : popcount (m + 1) V = 0
    · rw [if_pos h0, popcount_eq_zero h0]
    · rw [if_neg h0, choose_eq, scanOffset, Nat.pow_succ, Nat.mul_comm (2 ^ m) 2,
        Nat.mod_mul (x := V), ← ih (V / 2)]
      by_cases h1 : V % 2 = 1
      · rw [if_pos h1, if_pos (Nat.le_add_right _ _), Nat.add_sub_cancel_left,
          show popcount (m + 1) V - 1 = popcount m (V / 2) by rw [popcount_succ]; omega, h1]
      · have hp : popcount (m + 1) V = popcount m (V / 2) := by rw [popcount_succ]; omega
        rw [if_neg h1, hp, if_neg (Nat.not_le.mpr (scanOffset_lt m _))]
        omega

/-- The scan of rule R160 undoes the scan of rule R162, and every pair it accepts is a block. -/
theorem scanOffset_unrankScan {m c o : Nat} (hc : c ≤ m) (ho : o < m.choose c) :
    unrankScan m c o < 2 ^ m ∧ popcount m (unrankScan m c o) = c ∧
      scanOffset m (unrankScan m c o) = o := by
  induction m generalizing c o with
  | zero =>
    obtain rfl : c = 0 := by omega
    simp at ho
    simp [unrankScan, popcount, scanOffset, ho]
  | succ m ih =>
    rw [unrankScan]
    by_cases h0 : c = 0
    · subst h0
      simp only [Nat.choose_zero_right] at ho
      obtain rfl : o = 0 := by omega
      have hp : ∀ k, popcount k 0 = 0 := fun k => by
        induction k with
        | zero => rfl
        | succ k ih => rw [popcount_succ, Nat.zero_div, ih]
      have hs : ∀ k, scanOffset k 0 = 0 := fun k => by
        induction k with
        | zero => rfl
        | succ k ih => rw [scanOffset_succ, Nat.zero_div, ih]; simp
      simp [hp, hs]
    · obtain ⟨d, rfl⟩ := Nat.exists_eq_succ_of_ne_zero h0
      rw [if_neg h0, choose_eq, Nat.pow_succ]
      by_cases h1 : m.choose (d + 1) ≤ o
      · rw [if_pos h1]
        have ho' : o - m.choose (d + 1) < m.choose d := by
          rw [Nat.choose_succ_succ'] at ho; omega
        obtain ⟨h2, h3, h4⟩ := ih (c := d) (by omega) ho'
        rw [Nat.succ_sub_one, popcount_succ, scanOffset_succ, popcount_succ]
        generalize unrankScan m d (o - m.choose (d + 1)) = U at *
        rw [show (1 + 2 * U) / 2 = U by omega, show (1 + 2 * U) % 2 = 1 by omega, h3, h4, if_pos rfl,
          Nat.add_comm 1 d]
        omega
      · rw [if_neg h1]
        have hd : d + 1 ≤ m := by
          by_contra hlt
          rw [Nat.choose_eq_zero_of_lt (by omega)] at h1
          omega
        obtain ⟨h2, h3, h4⟩ := ih (c := d + 1) (o := o) hd (by omega)
        rw [popcount_succ, scanOffset_succ]
        generalize unrankScan m (d + 1) o = U at *
        rw [show 2 * U / 2 = U by omega, show 2 * U % 2 = 0 by omega, h3, h4, if_neg (by decide)]
        omega

end Sys2Proof.Machine
end

