-- ==== Sys2Proof/Laws/Memory.lean ====
section
/-! SUPPORT. The byte memory of a container: every operation keeps the canonical form, what each
operation makes a byte read as, and that equal contents are equal data. -/

namespace Sys2Proof.Machine

/-- Every listed address is at or above a. -/
def Memory.from (a : Nat) (m : Memory) : Prop := ∀ c ∈ m, a ≤ c.1

theorem Memory.wf_cons_iff (c : Host.Cell) (m : Memory) :
    Memory.wf (c :: m) = true ↔
      c.2 ≠ Config.unlistedByte ∧ Memory.from (c.1 + 1) m ∧ Memory.wf m = true := by
  induction m generalizing c with
  | nil => simp [Memory.wf, Memory.from]
  | cons d rest ih =>
    simp only [Memory.wf, Bool.and_eq_true, decide_eq_true_eq, ih d]
    constructor
    · rintro ⟨⟨hc, hlt⟩, hd, hfrom, hrest⟩
      refine ⟨hc, ?_, hd, hfrom, hrest⟩
      intro e he
      rcases List.mem_cons.mp he with rfl | he
      · exact hlt
      · have := hfrom e he; omega
    · rintro ⟨hc, hfrom, hd, hd', hrest⟩
      exact ⟨⟨hc, hfrom d (by simp)⟩, hd, hd', hrest⟩

theorem Memory.readByte_of_from {m : Memory} {a : Nat} (h : Memory.from (a + 1) m) :
    m.readByte a = Config.unlistedByte := by
  induction m with
  | nil => rfl
  | cons c rest ih =>
    have hc := h c (by simp)
    have : c.1 ≠ a := by omega
    obtain ⟨k, v⟩ := c
    simp only [Memory.readByte, if_neg this]
    exact ih fun e he => h e (by simp [he])

/-! ### Putting a byte in front -/

theorem Memory.wf_cons {a : Nat} {v : Byte} {m : Memory} (hm : m.wf = true)
    (h : Memory.from (a + 1) m) : (Memory.cons a v m).wf = true := by
  unfold Memory.cons
  split
  · exact hm
  · rename_i hv
    exact (Memory.wf_cons_iff _ _).mpr ⟨hv, h, hm⟩

theorem Memory.from_cons {a b : Nat} {v : Byte} {m : Memory} (h : Memory.from b m) (hab : b ≤ a) :
    Memory.from b (Memory.cons a v m) := by
  unfold Memory.cons
  split
  · exact h
  · intro e he
    rcases List.mem_cons.mp he with rfl | he
    · exact hab
    · exact h e he

theorem Memory.readByte_cons {a x : Nat} {v : Byte} {m : Memory} (h : Memory.from (a + 1) m) :
    (Memory.cons a v m).readByte x = if x = a then v else m.readByte x := by
  unfold Memory.cons
  by_cases hv : v = Config.unlistedByte
  · simp only [if_pos hv]
    split
    · subst_vars; exact Memory.readByte_of_from h
    · rfl
  · simp only [if_neg hv, Memory.readByte]
    simp only [eq_comm]

/-! ### Writing a byte -/

theorem Memory.from_writeByte {m : Memory} {a b : Nat} {v : Byte} (h : Memory.from b m)
    (hab : b ≤ a) : Memory.from b (m.writeByte a v) := by
  induction m with
  | nil => exact Memory.from_cons (fun e he => by simp at he) hab
  | cons c rest ih =>
    obtain ⟨k, w⟩ := c
    have hrest : Memory.from b rest := fun e he => h e (by simp [he])
    simp only [Memory.writeByte]
    split
    · exact Memory.from_cons h hab
    · split
      · exact Memory.from_cons hrest hab
      · intro e he
        rcases List.mem_cons.mp he with rfl | he
        · exact h (k, w) (by simp)
        · exact ih hrest e he

theorem Memory.wf_writeByte {m : Memory} (hm : m.wf = true) (a : Nat) (v : Byte) :
    (m.writeByte a v).wf = true := by
  induction m with
  | nil => exact Memory.wf_cons rfl fun e he => by simp at he
  | cons c rest ih =>
    obtain ⟨k, w⟩ := c
    obtain ⟨hw, hfrom, hrest⟩ := (Memory.wf_cons_iff _ _).mp hm
    simp only [Memory.writeByte]
    split
    · rename_i hlt
      refine Memory.wf_cons hm fun e he => ?_
      rcases List.mem_cons.mp he with rfl | he
      · exact hlt
      · have := hfrom e he; simp only at this; omega
    · split
      · rename_i h1 h2
        subst h2
        exact Memory.wf_cons hrest hfrom
      · rename_i h1 h2
        refine (Memory.wf_cons_iff _ _).mpr ⟨hw, ?_, ih hrest⟩
        exact Memory.from_writeByte hfrom (by simp only; omega)

/-- A byte written reads back, and every other byte reads as before. -/
theorem Memory.readByte_writeByte {m : Memory} (hm : m.wf = true) (a x : Nat) (v : Byte) :
    (m.writeByte a v).readByte x = if x = a then v else m.readByte x := by
  induction m with
  | nil => exact Memory.readByte_cons fun e he => by simp at he
  | cons c rest ih =>
    obtain ⟨k, w⟩ := c
    obtain ⟨hw, hfrom, hrest⟩ := (Memory.wf_cons_iff _ _).mp hm
    simp only [Memory.writeByte]
    split
    · rename_i hlt
      refine Memory.readByte_cons fun e he => ?_
      rcases List.mem_cons.mp he with rfl | he
      · exact hlt
      · have := hfrom e he; simp only at this; omega
    · split
      · rename_i h1 h2
        subst h2
        rw [Memory.readByte_cons hfrom]
        split
        · rfl
        · rename_i hx
          simp only [Memory.readByte, if_neg (Ne.symm hx)]
      · rename_i h1 h2
        simp only [Memory.readByte, ih hrest]
        by_cases hk : k = x
        · subst hk; simp [Ne.symm h2]
        · simp [hk]

/-! ### Clearing low bits -/

theorem Memory.from_clearBelow {m : Memory} {b L : Nat} (h : Memory.from b m) :
    Memory.from b (m.clearBelow L) := by
  induction m with
  | nil => exact h
  | cons c rest ih =>
    obtain ⟨k, v⟩ := c
    exact Memory.from_cons (ih fun e he => h e (by simp [he])) (h (k, v) (by simp))

theorem Memory.wf_clearBelow {m : Memory} (hm : m.wf = true) (L : Nat) :
    (m.clearBelow L).wf = true := by
  induction m with
  | nil => rfl
  | cons c rest ih =>
    obtain ⟨k, v⟩ := c
    obtain ⟨-, hfrom, hrest⟩ := (Memory.wf_cons_iff _ _).mp hm
    exact Memory.wf_cons (ih hrest) (Memory.from_clearBelow hfrom)

theorem Memory.readByte_clearBelow {m : Memory} (hm : m.wf = true) (L x : Nat) :
    (m.clearBelow L).readByte x = Byte.clearLow (L - 8 * x) (m.readByte x) := by
  induction m with
  | nil => simp [Memory.clearBelow, Memory.readByte, Byte.clearLow, Config.unlistedByte]
  | cons c rest ih =>
    obtain ⟨k, v⟩ := c
    obtain ⟨-, hfrom, hrest⟩ := (Memory.wf_cons_iff _ _).mp hm
    simp only [Memory.clearBelow]
    rw [Memory.readByte_cons (Memory.from_clearBelow hfrom), ih hrest]
    simp only [Memory.readByte]
    by_cases h : x = k
    · subst h; simp
    · simp [h, Ne.symm h]

/-! ### Equal contents are equal data -/

theorem Memory.ext_of_readByte {m m' : Memory} (hm : m.wf = true) (hm' : m'.wf = true)
    (h : ∀ a, m.readByte a = m'.readByte a) : m = m' := by
  induction m generalizing m' with
  | nil =>
    cases m' with
    | nil => rfl
    | cons d rest' =>
      obtain ⟨k, w⟩ := d
      obtain ⟨hw, -, -⟩ := (Memory.wf_cons_iff _ _).mp hm'
      exact absurd (by simpa [Memory.readByte] using (h k).symm) hw
  | cons c rest ih =>
    obtain ⟨k, v⟩ := c
    obtain ⟨hv, hfrom, hrest⟩ := (Memory.wf_cons_iff _ _).mp hm
    cases m' with
    | nil => exact absurd (by simpa [Memory.readByte] using h k) hv
    | cons d rest' =>
      obtain ⟨k', v'⟩ := d
      obtain ⟨hv', hfrom', hrest'⟩ := (Memory.wf_cons_iff _ _).mp hm'
      simp only at hfrom hfrom' hv hv'
      have hkk : k = k' := by
        rcases Nat.lt_trichotomy k k' with hlt | heq | hgt
        · have h1 := h k
          simp only [Memory.readByte, if_true, if_neg (Nat.ne_of_gt hlt)] at h1
          rw [Memory.readByte_of_from (fun e he => by have := hfrom' e he; omega)] at h1
          exact absurd h1 hv
        · exact heq
        · have h1 := h k'
          simp only [Memory.readByte, if_true, if_neg (Nat.ne_of_gt hgt)] at h1
          rw [Memory.readByte_of_from (fun e he => by have := hfrom e he; omega)] at h1
          exact absurd h1.symm hv'
      subst hkk
      have hvv : v = v' := by simpa [Memory.readByte] using h k
      subst hvv
      have : rest = rest' := by
        refine ih hrest hrest' fun a => ?_
        by_cases ha : k = a
        · subst ha
          rw [Memory.readByte_of_from hfrom, Memory.readByte_of_from hfrom']
        · simpa [Memory.readByte, ha] using h a
      rw [this]

end Sys2Proof.Machine
end

