-- ==== Sys2Proof/Laws/Container.lean ====
section
/-! SUPPORT. The bit operations of a container (rule R11): one lemma for each that says which bit
every position holds afterwards, that the length and the canonical form stay, and what MemRead
answers. -/

namespace Sys2Proof.Machine

/-! ### Lengths -/

@[simp] theorem Container.len_setBit (c : Container) (p : Nat) (b : Bool) :
    (c.setBit p b).len = c.len := rfl

@[simp] theorem Container.len_memWrite (c : Container) (p n v : Nat) :
    (c.memWrite p n v).len = c.len := by
  induction n generalizing c p v with
  | zero => rfl
  | succ n ih => simp [Container.memWrite, ih]

@[simp] theorem Container.len_zeroFill (c : Container) (L : Nat) : (c.zeroFill L).len = c.len := rfl

@[simp] theorem Container.len_setLen (c : Container) (n : Nat) : (c.setLen n).len = toWord n := rfl

@[simp] theorem Container.bytes_setLen (c : Container) (n : Nat) :
    (c.setLen n).bytes = c.bytes := rfl

@[simp] theorem Container.bit_setLen (c : Container) (n p : Nat) : (c.setLen n).bit p = c.bit p := rfl

/-! ### The canonical form -/

theorem Container.wf_setBit {c : Container} (h : c.bytes.wf = true) (p : Nat) (b : Bool) :
    (c.setBit p b).bytes.wf = true := Memory.wf_writeByte h _ _

theorem Container.wf_memWrite {c : Container} (h : c.bytes.wf = true) (p n v : Nat) :
    (c.memWrite p n v).bytes.wf = true := by
  induction n generalizing c p v with
  | zero => exact h
  | succ n ih => exact ih (Container.wf_setBit h p _) (p + 1) (v / 2)

theorem Container.wf_zeroFill {c : Container} (h : c.bytes.wf = true) (L : Nat) :
    (c.zeroFill L).bytes.wf = true := Memory.wf_clearBelow h L

/-! ### Bits -/

theorem Byte.getLsbD_putBit (v : Byte) (j k : Nat) (b : Bool) (hj : j < 8) :
    (Byte.putBit v j b).getLsbD k = if k = j then b else v.getLsbD k := by
  unfold Byte.putBit
  by_cases hk : k < 8
  · cases b
    · simp only [Bool.false_eq_true, if_false, BitVec.getLsbD_and, BitVec.getLsbD_not,
        BitVec.getLsbD_shiftLeft, BitVec.getLsbD_one]
      by_cases h : k = j
      · subst h; simp [hk]
      · simp only [if_neg h]
        have : ¬ (j ≤ k ∧ k - j = 0) := by omega
        by_cases h' : k < j <;> simp [hk, h'] ; omega
    · simp only [if_true, BitVec.getLsbD_or, BitVec.getLsbD_shiftLeft, BitVec.getLsbD_one]
      by_cases h : k = j
      · subst h; simp [hk]
      · simp only [if_neg h]
        by_cases h' : k < j <;> simp [hk, h'] ; omega
  · have h : k ≠ j := by omega
    simp only [if_neg h]
    rw [BitVec.getLsbD_of_ge _ _ (by omega), BitVec.getLsbD_of_ge _ _ (by omega)]

/-- A bit written reads back, and every other bit reads as before. -/
theorem Container.bit_setBit {c : Container} (h : c.bytes.wf = true) (p q : Nat) (b : Bool) :
    (c.setBit p b).bit q = if q = p then b else c.bit q := by
  simp only [Container.setBit, Container.bit, Memory.readByte_writeByte h]
  by_cases hb : q / 8 = p / 8
  · rw [if_pos hb, Byte.getLsbD_putBit _ _ _ _ (Nat.mod_lt _ (by decide)), hb]
    by_cases hq : q = p
    · simp [hq]
    · rw [if_neg hq, if_neg (by omega)]
  · rw [if_neg hb, if_neg (by rintro rfl; exact hb rfl)]

/-- What MemWrite writes, and that it changes no other bit (rule R11). -/
theorem Container.bit_memWrite {c : Container} (h : c.bytes.wf = true) (p n v q : Nat) :
    (c.memWrite p n v).bit q = if p ≤ q ∧ q < p + n then v.testBit (q - p) else c.bit q := by
  induction n generalizing c p v with
  | zero => rw [if_neg (by omega)]; rfl
  | succ n ih =>
    rw [Container.memWrite, ih (Container.wf_setBit h p _), Container.bit_setBit h]
    by_cases h1 : p + 1 ≤ q ∧ q < p + 1 + n
    · rw [if_pos h1, if_pos (by omega)]
      obtain ⟨k, rfl⟩ : ∃ k, q = p + 1 + k := ⟨q - (p + 1), by omega⟩
      rw [show p + 1 + k - (p + 1) = k by omega, show p + 1 + k - p = k + 1 by omega,
        Nat.testBit_succ]
    · rw [if_neg h1]
      by_cases h2 : q = p
      · subst h2
        rw [if_pos rfl, if_pos (by omega), Nat.sub_self, Nat.testBit_zero]
      · rw [if_neg h2, if_neg (by omega)]

/-- Every byte outside the written window reads as before. -/
theorem Container.readByte_memWrite_of_outside {c : Container} (h : c.bytes.wf = true)
    {p n v a : Nat} (ha : 8 * a + 8 ≤ p ∨ p + n ≤ 8 * a) :
    (c.memWrite p n v).bytes.readByte a = c.bytes.readByte a := by
  apply BitVec.eq_of_getLsbD_eq
  intro k hk
  have := Container.bit_memWrite h p n v (8 * a + k)
  rw [if_neg (by omega)] at this
  simpa [Container.bit, Nat.add_mod, Nat.mod_eq_of_lt hk, show (8 * a + k) / 8 = a by omega,
    show (8 * a + k) % 8 = k by omega] using this

theorem Byte.getLsbD_clearLow (v : Byte) (j k : Nat) :
    (Byte.clearLow j v).getLsbD k = if k < j then false else v.getLsbD k := by
  simp only [Byte.clearLow, BitVec.getLsbD_shiftLeft, BitVec.getLsbD_ushiftRight]
  by_cases hk : k < j
  · simp [hk]
  · by_cases h8 : k < 8
    · simp [hk, h8, show j + (k - j) = k by omega]
    · simp [hk, h8, BitVec.getLsbD_of_ge v k (by omega)]

/-- The loop of rule R120 zeroes the bits below L and changes no other. -/
theorem Container.bit_zeroFill {c : Container} (h : c.bytes.wf = true) (L q : Nat) :
    (c.zeroFill L).bit q = if q < L then false else c.bit q := by
  simp only [Container.zeroFill, Container.bit, Memory.readByte_clearBelow h, Byte.getLsbD_clearLow]
  by_cases hq : q < L
  · rw [if_pos hq, if_pos (by omega)]
  · rw [if_neg hq, if_neg (by omega)]

theorem Container.bit_empty (p : Nat) : Container.empty.bit p = false := by
  simp [Container.empty, Container.bit, Memory.readByte, Config.unlistedByte]

/-- Two containers with the same length and the same bits are the same data. -/
theorem Container.ext_of_bit {c d : Container} (hc : c.bytes.wf = true) (hd : d.bytes.wf = true)
    (hlen : c.len = d.len) (h : ∀ p, c.bit p = d.bit p) : c = d := by
  obtain ⟨len, bytes⟩ := c
  obtain ⟨len', bytes'⟩ := d
  simp only at hlen hc hd
  subst hlen
  have : bytes = bytes' := by
    refine Memory.ext_of_readByte hc hd fun a => BitVec.eq_of_getLsbD_eq fun k hk => ?_
    have := h (8 * a + k)
    simpa [Container.bit, show (8 * a + k) / 8 = a by omega,
      show (8 * a + k) % 8 = k by omega] using this
  rw [this]

/-! ### MemRead -/

theorem Container.memRead_lt (c : Container) (p n : Nat) : c.memRead p n < 2 ^ n := by
  induction n generalizing p with
  | zero => simp [Container.memRead]
  | succ n ih =>
    have := ih (p + 1)
    have hb : (c.bit p).toNat ≤ 1 := Bool.toNat_le _
    rw [Container.memRead, Nat.pow_succ]
    omega

/-- Bit k of MemRead(C, p, n) is C.bit(p + k) (rule R11). -/
theorem Container.testBit_memRead (c : Container) (p n k : Nat) :
    (c.memRead p n).testBit k = (decide (k < n) && c.bit (p + k)) := by
  induction n generalizing p k with
  | zero => simp [Container.memRead]
  | succ n ih =>
    rw [Container.memRead]
    cases k with
    | zero =>
      rw [Nat.testBit_zero]
      cases c.bit p <;> simp [Nat.add_mod]
    | succ k =>
      rw [Nat.testBit_succ, show ((c.bit p).toNat + 2 * c.memRead (p + 1) n) / 2
        = c.memRead (p + 1) n by have := Bool.toNat_le (c.bit p); omega, ih]
      simp [show p + 1 + k = p + (k + 1) by omega]

/-- MemRead depends on the bits of its window alone. -/
theorem Container.memRead_congr {c d : Container} {p n : Nat}
    (h : ∀ k < n, c.bit (p + k) = d.bit (p + k)) : c.memRead p n = d.memRead p n := by
  refine Nat.eq_of_testBit_eq fun k => ?_
  rw [Container.testBit_memRead, Container.testBit_memRead]
  by_cases hk : k < n
  · simp [hk, h k hk]
  · simp [hk]

/-- What MemWrite wrote, MemRead reads. -/
theorem Container.memRead_memWrite_same {c : Container} (h : c.bytes.wf = true) (p n v : Nat) :
    (c.memWrite p n v).memRead p n = v % 2 ^ n := by
  refine Nat.eq_of_testBit_eq fun k => ?_
  rw [Container.testBit_memRead, Container.bit_memWrite h, Nat.testBit_mod_two_pow]
  by_cases hk : k < n
  · simp [hk]
  · simp [hk]

/-- MemRead of a window disjoint from the one written is unchanged. -/
theorem Container.memRead_memWrite_disjoint {c : Container} (h : c.bytes.wf = true)
    {p n v q m : Nat} (hd : q + m ≤ p ∨ p + n ≤ q) :
    (c.memWrite p n v).memRead q m = c.memRead q m := by
  refine Container.memRead_congr fun k hk => ?_
  rw [Container.bit_memWrite h, if_neg (by omega)]

/-- MemRead as the sum of rule R11. -/
theorem Container.memRead_eq_sum (c : Container) (p n : Nat) :
    c.memRead p n = ∑ k ∈ Finset.range n, (c.bit (p + k)).toNat * 2 ^ k := by
  induction n generalizing p with
  | zero => rfl
  | succ n ih =>
    rw [Container.memRead, ih, Finset.sum_range_succ', Finset.mul_sum, Nat.add_comm]
    simp only [Nat.pow_zero, Nat.mul_one, Nat.add_zero]
    congr 1
    refine Finset.sum_congr rfl fun k _ => ?_
    rw [show p + 1 + k = p + (k + 1) by omega, Nat.pow_succ]
    ring

end Sys2Proof.Machine
end

