-- ==== Sys2Proof/Laws/Commands.lean ====
section
/-! SUPPORT. What each shared operation of the commands answers, case by case, so that no later proof
unfolds it: the field operations over W, the rank query, and BUILD. -/

namespace Sys2Proof.Machine

theorem badBitsize_iff (w bs : Nat) : badBitsize w bs = true ↔ bs = 0 ∨ w < bs := by
  simp [badBitsize]

theorem badBitsize_eq_false {w bs : Nat} (h1 : 1 ≤ bs) (h2 : bs ≤ w) : badBitsize w bs = false := by
  simp [badBitsize]; omega

theorem badBlockSize_iff (b : Nat) : badBlockSize b = true ↔ b = 0 ∨ 64 < b := by
  simp [badBlockSize]

theorem badBlockSize_eq_false {b : Nat} (h1 : 1 ≤ b) (h2 : b ≤ 64) : badBlockSize b = false := by
  simp [badBlockSize]; omega

/-- The bits a SET or APPEND moves are the low bits of ARG1, at every legal width (rule R77). -/
theorem State.fieldValue_eq (s : State) {w bs : Nat} (h : bs ≤ w) :
    s.fieldValue w bs = s.arg1.toNat % 2 ^ bs := by
  simp only [State.fieldValue, low, State.operand1]
  exact Nat.mod_mod_of_dvd _ (Nat.pow_dvd_pow 2 h)

/-! ### GET -/

theorem getField_bad {w bs : Nat} (sel : Sel) (s : State) (h : bs = 0 ∨ w < bs) :
    getField w bs sel s = .next (s.raise .invalidBitsize) := by
  simp [getField, (badBitsize_iff w bs).mpr h]

theorem getField_range {w bs : Nat} {sel : Sel} {s : State} (h1 : 1 ≤ bs) (h2 : bs ≤ w)
    (h : (s.container sel).len.toNat < s.arg0.toNat + bs) :
    getField w bs sel s = .next (s.raise .outOfRange) := by
  simp [getField, badBitsize_eq_false h1 h2, State.operand0, h]

theorem getField_ok {w bs : Nat} {sel : Sel} {s : State} (h1 : 1 ≤ bs) (h2 : bs ≤ w)
    (h : s.arg0.toNat + bs ≤ (s.container sel).len.toNat) :
    getField w bs sel s
      = .next (s.setRes0 ((s.container sel).memRead s.arg0.toNat bs)).complete := by
  simp [getField, badBitsize_eq_false h1 h2, State.operand0, Nat.not_lt.mpr h]

/-! ### SET -/

theorem setField_bad {w bs : Nat} (s : State) (h : bs = 0 ∨ w < bs) :
    setField w bs s = .next (s.raise .invalidBitsize) := by
  simp [setField, (badBitsize_iff w bs).mpr h]

theorem setField_range {w bs : Nat} {s : State} (h1 : 1 ≤ bs) (h2 : bs ≤ w)
    (h : s.src.len.toNat < s.arg0.toNat + bs) :
    setField w bs s = .next (s.raise .outOfRange) := by
  simp [setField, badBitsize_eq_false h1 h2, State.operand0, h]

theorem setField_ok {w bs : Nat} {s : State} (h1 : 1 ≤ bs) (h2 : bs ≤ w)
    (h : s.arg0.toNat + bs ≤ s.src.len.toNat) :
    setField w bs s
      = .next (s.setSrc (s.src.memWrite s.arg0.toNat bs (s.arg1.toNat % 2 ^ bs))).complete := by
  simp [setField, badBitsize_eq_false h1 h2, State.operand0, Nat.not_lt.mpr h,
    s.fieldValue_eq h2]

/-! ### APPEND -/

theorem appendField_bad {w bs : Nat} (s : State) (h : bs = 0 ∨ w < bs) :
    appendField w bs s = .next (s.raise .invalidBitsize) := by
  simp [appendField, (badBitsize_iff w bs).mpr h]

theorem appendField_capacity {w bs : Nat} {s : State} (h1 : 1 ≤ bs) (h2 : bs ≤ w)
    (h : s.params.srcCapBits.toNat < s.src.len.toNat + bs) :
    appendField w bs s = .next (s.raise .capacityExceeded) := by
  simp [appendField, badBitsize_eq_false h1 h2, h]

theorem appendField_ok {w bs : Nat} {s : State} (h1 : 1 ≤ bs) (h2 : bs ≤ w)
    (h : s.src.len.toNat + bs ≤ s.params.srcCapBits.toNat) :
    appendField w bs s
      = .next ((s.setSrc ((s.src.setLen (s.src.len.toNat + bs)).memWrite s.src.len.toNat bs
          (s.arg1.toNat % 2 ^ bs))).setRes0 (s.src.len.toNat + bs)).complete := by
  simp [appendField, badBitsize_eq_false h1 h2, Nat.not_lt.mpr h, s.fieldValue_eq h2]

/-! ### NEW, BUILD and RANK -/

theorem execNew_capacity {s : State} (h : s.params.srcCapBits.toNat < s.arg0.toNat) :
    execNew s = .next (s.raise .capacityExceeded) := by
  simp [execNew, State.operand0, h]

theorem execNew_ok {s : State} (h : s.arg0.toNat ≤ s.params.srcCapBits.toNat) :
    execNew s
      = .next (s.setSrc ((s.src.setLen s.arg0.toNat).zeroFill s.arg0.toNat)).complete := by
  simp [execNew, State.operand0, Nat.not_lt.mpr h]

theorem execBuild_blockSize {rbs : Nat} (rss : Nat) (s : State) (h : 64 < rbs) :
    execBuild rbs rss s = .next (s.raise .invalidBlockSize) := by
  simp [execBuild, h]

theorem execBuild_capacity {rbs rss : Nat} {s : State} (h : rbs ≤ 64)
    (hc : s.params.idxCapBits.toNat < (Geometry.make s.src.len.toNat rbs rss).cap) :
    execBuild rbs rss s = .next (s.raise .capacityExceeded) := by
  simp [execBuild, Nat.not_lt.mpr h, hc]

theorem execBuild_ok {rbs rss : Nat} {s : State} (h : rbs ≤ 64)
    (hc : (Geometry.make s.src.len.toNat rbs rss).cap ≤ s.params.idxCapBits.toNat) :
    execBuild rbs rss s
      = .next (s.commitIndex (Geometry.make s.src.len.toNat rbs rss)).complete := by
  simp [execBuild, Nat.not_lt.mpr h, Nat.not_lt.mpr hc]

theorem rankQuery_notBuilt (f : Nat → Nat → Nat) {s : State} (h : s.status.built = false) :
    rankQuery f s = .next (s.raise .notBuilt) := by
  simp [rankQuery, h]

theorem rankQuery_range (f : Nat → Nat → Nat) {s : State} (h : s.status.built = true)
    (hi : s.idxN.toNat < s.arg0.toNat) : rankQuery f s = .next (s.raise .outOfRange) := by
  simp [rankQuery, h, State.operand0, hi]

theorem rankQuery_ok (f : Nat → Nat → Nat) {s : State} (h : s.status.built = true)
    (hi : s.arg0.toNat ≤ s.idxN.toNat) :
    rankQuery f s
      = .next (s.setRes0 (f s.arg0.toNat (rankOnes s.geometry s.idx s.arg0.toNat))).complete := by
  simp [rankQuery, h, State.operand0, Nat.not_lt.mpr hi]

/-! ### Every command -/

/-- What exec can answer, once: the error latch, or one of the seven successes (rules R20, R212).
Nothing else of the state changes in any of them. -/
theorem exec_cases (i : Instr) (s : State) :
    (∃ e, exec i s = .next (s.raise e)) ∨
    (∃ v, exec i s = .next (s.setRes0 v).complete) ∨
    (∃ v v' wb, i = .encode wb ∧ exec i s = .next ((s.setRes0 v).setRes1 v').complete) ∨
    (i = .new ∧ s.arg0.toNat ≤ s.params.srcCapBits.toNat ∧
      exec i s
        = .next (s.setSrc ((s.src.setLen s.arg0.toNat).zeroFill s.arg0.toNat)).complete) ∨
    (∃ w bs, (i = .set8 bs ∨ i = .set16 bs ∨ i = .set32 bs ∨ i = .set64 bs) ∧ bs ≤ w ∧
      s.arg0.toNat + bs ≤ s.src.len.toNat ∧
      exec i s = .next (s.setSrc (s.src.memWrite s.arg0.toNat bs (s.fieldValue w bs))).complete) ∨
    (∃ w bs, (i = .append8 bs ∨ i = .append16 bs ∨ i = .append32 bs ∨ i = .append64 bs) ∧ bs ≤ w ∧
      s.src.len.toNat + bs ≤ s.params.srcCapBits.toNat ∧
      exec i s
        = .next ((s.setSrc ((s.src.setLen (s.src.len.toNat + bs)).memWrite s.src.len.toNat bs
            (s.fieldValue w bs))).setRes0 (s.src.len.toNat + bs)).complete) ∨
    (∃ rbs rss, i = .build rbs rss ∧ rbs ≤ 64 ∧
      (Geometry.make s.src.len.toNat rbs rss).cap ≤ s.params.idxCapBits.toNat ∧
      exec i s = .next (s.commitIndex (Geometry.make s.src.len.toNat rbs rss)).complete) := by
  have get : ∀ w bs sel, (∃ e, getField w bs sel s = .next (s.raise e)) ∨
      ∃ v, getField w bs sel s = .next (s.setRes0 v).complete := by
    intro w bs sel
    unfold getField
    dsimp only
    split
    · exact .inl ⟨_, rfl⟩
    · split
      · exact .inl ⟨_, rfl⟩
      · exact .inr ⟨_, rfl⟩
  have set : ∀ w bs, (∃ e, setField w bs s = .next (s.raise e)) ∨
      (bs ≤ w ∧ s.arg0.toNat + bs ≤ s.src.len.toNat ∧ setField w bs s
        = .next (s.setSrc (s.src.memWrite s.arg0.toNat bs (s.fieldValue w bs))).complete) := by
    intro w bs
    unfold setField
    dsimp only
    split
    · exact .inl ⟨_, rfl⟩
    · rename_i hb
      have hb := (badBitsize_iff w bs).not.mp hb
      split
      · exact .inl ⟨_, rfl⟩
      · rename_i hr
        exact .inr ⟨by omega, Nat.not_lt.mp hr, rfl⟩
  have append : ∀ w bs, (∃ e, appendField w bs s = .next (s.raise e)) ∨
      (bs ≤ w ∧ s.src.len.toNat + bs ≤ s.params.srcCapBits.toNat ∧ appendField w bs s
        = .next ((s.setSrc ((s.src.setLen (s.src.len.toNat + bs)).memWrite s.src.len.toNat bs
            (s.fieldValue w bs))).setRes0 (s.src.len.toNat + bs)).complete) := by
    intro w bs
    unfold appendField
    dsimp only
    split
    · exact .inl ⟨_, rfl⟩
    · rename_i hb
      have hb := (badBitsize_iff w bs).not.mp hb
      split
      · exact .inl ⟨_, rfl⟩
      · rename_i hr
        exact .inr ⟨by omega, Nat.not_lt.mp hr, rfl⟩
  have rank : ∀ f, (∃ e, rankQuery f s = .next (s.raise e)) ∨
      ∃ v, rankQuery f s = .next (s.setRes0 v).complete := by
    intro f
    unfold rankQuery
    dsimp only
    split
    · exact .inl ⟨_, rfl⟩
    · split
      · exact .inl ⟨_, rfl⟩
      · exact .inr ⟨_, rfl⟩
  cases i with
  | new =>
    rcases Nat.lt_or_ge s.params.srcCapBits.toNat s.arg0.toNat with h | h
    · exact .inl ⟨_, execNew_capacity h⟩
    · exact .inr (.inr (.inr (.inl ⟨rfl, h, execNew_ok h⟩)))
  | get8 bs sel => exact (get 8 bs sel).imp_right .inl
  | get16 bs sel => exact (get 16 bs sel).imp_right .inl
  | get32 bs sel => exact (get 32 bs sel).imp_right .inl
  | get64 bs sel => exact (get 64 bs sel).imp_right .inl
  | set8 bs =>
    exact (set 8 bs).imp_right fun h => .inr (.inr (.inr (.inl ⟨8, bs, by simp, h⟩)))
  | set16 bs =>
    exact (set 16 bs).imp_right fun h => .inr (.inr (.inr (.inl ⟨16, bs, by simp, h⟩)))
  | set32 bs =>
    exact (set 32 bs).imp_right fun h => .inr (.inr (.inr (.inl ⟨32, bs, by simp, h⟩)))
  | set64 bs =>
    exact (set 64 bs).imp_right fun h => .inr (.inr (.inr (.inl ⟨64, bs, by simp, h⟩)))
  | append8 bs =>
    exact (append 8 bs).imp_right fun h => .inr (.inr (.inr (.inr (.inl ⟨8, bs, by simp, h⟩))))
  | append16 bs =>
    exact (append 16 bs).imp_right fun h => .inr (.inr (.inr (.inr (.inl ⟨16, bs, by simp, h⟩))))
  | append32 bs =>
    exact (append 32 bs).imp_right fun h => .inr (.inr (.inr (.inr (.inl ⟨32, bs, by simp, h⟩))))
  | append64 bs =>
    exact (append 64 bs).imp_right fun h => .inr (.inr (.inr (.inr (.inl ⟨64, bs, by simp, h⟩))))
  | length sel => exact .inr (.inl ⟨_, rfl⟩)
  | build rbs rss =>
    rcases Nat.lt_or_ge 64 rbs with h | h
    · exact .inl ⟨_, execBuild_blockSize rss s h⟩
    · rcases Nat.lt_or_ge s.params.idxCapBits.toNat
        (Geometry.make s.src.len.toNat rbs rss).cap with hc | hc
      · exact .inl ⟨_, execBuild_capacity h hc⟩
      · exact .inr (.inr (.inr (.inr (.inr (.inr
          ⟨rbs, rss, rfl, h, hc, execBuild_ok h hc⟩)))))
  | rank0 => exact (rank fun i r => i - r).imp_right .inl
  | rank1 => exact (rank fun _ r => r).imp_right .inl
  | choose =>
    unfold exec execChoose
    dsimp only
    split
    · exact .inl ⟨_, rfl⟩
    · exact .inr (.inl ⟨_, rfl⟩)
  | floorlog2 => exact .inr (.inl ⟨_, rfl⟩)
  | popcount wb =>
    unfold exec execPopcount
    dsimp only
    split
    · exact .inl ⟨_, rfl⟩
    · exact .inr (.inl ⟨_, rfl⟩)
  | encode wb =>
    unfold exec execEncode
    dsimp only
    split
    · exact .inl ⟨_, rfl⟩
    · exact .inr (.inr (.inl ⟨_, _, wb, rfl, rfl⟩))
  | decode wb =>
    unfold exec execDecode
    dsimp only
    repeat' split
    · exact .inl ⟨_, rfl⟩
    · exact .inl ⟨_, rfl⟩
    · exact .inl ⟨_, rfl⟩
    · exact .inr (.inl ⟨_, rfl⟩)

end Sys2Proof.Machine
end

