-- ==== Sys2Proof/Laws/Decode.lean ====
section
/-! SUPPORT. The decoder, one opcode at a time: what each branch of rule R79 answers, and the fields
of a word below 2^32 as arithmetic on its number. Cite these in place of unfolding `decode`. -/

namespace Sys2Proof

theorem bits_toWord {n : Nat} (h : n < 2 ^ 64) (hi lo : Nat) :
    bits (toWord n) hi lo = n / 2 ^ lo % 2 ^ (hi + 1 - lo) := by
  rw [bits, BitVec.toNat_ofNat, Nat.mod_eq_of_lt h]

/-- The fields of a word whose reserved upper half is 0. -/
theorem bits_of_lt {n : Nat} (h : n < 2 ^ 32) :
    bits (toWord n) 63 32 = 0 ∧ bits (toWord n) 7 0 = n % 256 ∧
    bits (toWord n) 15 8 = n / 256 % 256 ∧ bits (toWord n) 17 16 = n / 65536 % 4 ∧
    bits (toWord n) 18 18 = n / 262144 % 2 ∧ bits (toWord n) 23 16 = n / 65536 % 256 ∧
    bits (toWord n) 31 8 = n / 256 ∧ bits (toWord n) 31 19 = n / 524288 ∧
    bits (toWord n) 31 18 = n / 262144 ∧ bits (toWord n) 17 8 = n / 256 % 1024 ∧
    bits (toWord n) 31 24 = n / 16777216 ∧ bits (toWord n) 31 9 = n / 512 ∧
    bits (toWord n) 8 8 = n / 256 % 2 ∧ bits (toWord n) 31 16 = n / 65536 := by
  simp only [bits_toWord (show n < 2 ^ 64 by omega)]
  norm_num
  omega

/-- A slice of a word, as a bit vector and as a number (rule R7). -/
theorem toNat_extractLsb (w : Word) {hi lo : Nat} (h : lo ≤ hi) :
    (w.extractLsb hi lo).toNat = bits w hi lo := by
  simp only [bits, BitVec.extractLsb, BitVec.extractLsb', BitVec.toNat_ofNat,
    Nat.shiftRight_eq_div_pow]
  congr 2
  omega

theorem extractLsb_eq_zero_iff (w : Word) {hi lo : Nat} (h : lo ≤ hi) :
    w.extractLsb hi lo = 0 ↔ bits w hi lo = 0 := by
  rw [← toNat_extractLsb _ h, ← BitVec.toNat_inj]
  simp

theorem opcode_eq_iff (w : Word) {k : Nat} (hk : k < 256) :
    w.extractLsb 7 0 = BitVec.ofNat _ k ↔ bits w 7 0 = k := by
  rw [← toNat_extractLsb _ (Nat.zero_le _), ← BitVec.toNat_inj, BitVec.toNat_ofNat,
    Nat.mod_eq_of_lt (by simpa using hk)]

section
variable {w : Word} (h : bits w 63 32 = 0)
include h

theorem decode_new (h1 : bits w 7 0 = 0x01) (h2 : bits w 31 8 = 0) : decode w = some .new := by
  unfold decode; rw [h1]; simp [h, h2]

theorem decode_get (h1 : bits w 7 0 = 0x02) (h2 : bits w 31 19 = 0) :
    decode w
      = some (getOfWidthCode (bits w 17 16) (bits w 15 8) (selOfBit (bits w 18 18))) := by
  unfold decode; rw [h1]; simp [h, h2]

theorem decode_set (h1 : bits w 7 0 = 0x03) (h2 : bits w 31 18 = 0) :
    decode w = some (setOfWidthCode (bits w 17 16) (bits w 15 8)) := by
  unfold decode; rw [h1]; simp [h, h2]

theorem decode_append (h1 : bits w 7 0 = 0x04) (h2 : bits w 31 18 = 0) :
    decode w = some (appendOfWidthCode (bits w 17 16) (bits w 15 8)) := by
  unfold decode; rw [h1]; simp [h, h2]

theorem decode_length (h1 : bits w 7 0 = 0x05) (h2 : bits w 31 19 = 0) (h3 : bits w 17 8 = 0) :
    decode w = some (.length (selOfBit (bits w 18 18))) := by
  unfold decode; rw [h1]; simp [h, h2, h3]

theorem decode_build (h1 : bits w 7 0 = 0x10) (h2 : bits w 31 24 = 0) :
    decode w = some (.build (bits w 15 8) (bits w 23 16)) := by
  unfold decode; rw [h1]; simp [h, h2]

theorem decode_rank (h1 : bits w 7 0 = 0x11) (h2 : bits w 31 9 = 0) :
    decode w = if bits w 8 8 = 0 then some .rank0 else some .rank1 := by
  unfold decode; rw [h1]; simp [h, h2]

theorem decode_choose (h1 : bits w 7 0 = 0x20) (h2 : bits w 31 8 = 0) :
    decode w = some .choose := by
  unfold decode; rw [h1]; simp [h, h2]

theorem decode_floorlog2 (h1 : bits w 7 0 = 0x21) (h2 : bits w 31 8 = 0) :
    decode w = some .floorlog2 := by
  unfold decode; rw [h1]; simp [h, h2]

theorem decode_popcount (h1 : bits w 7 0 = 0x22) (h2 : bits w 31 16 = 0) :
    decode w = some (.popcount (bits w 15 8)) := by
  unfold decode; rw [h1]; simp [h, h2]

theorem decode_encode (h1 : bits w 7 0 = 0x23) (h2 : bits w 31 16 = 0) :
    decode w = some (.encode (bits w 15 8)) := by
  unfold decode; rw [h1]; simp [h, h2]

theorem decode_decode (h1 : bits w 7 0 = 0x24) (h2 : bits w 31 16 = 0) :
    decode w = some (.decode (bits w 15 8)) := by
  unfold decode; rw [h1]; simp [h, h2]

end

/-- The words that decode, opcode by opcode. -/
theorem decode_cases {w : Word} {i : Instr} (hd : decode w = some i) :
    bits w 63 32 = 0 ∧
    ((bits w 7 0 = 0x01 ∧ bits w 31 8 = 0 ∧ i = .new) ∨
     (bits w 7 0 = 0x02 ∧ bits w 31 19 = 0 ∧
        i = getOfWidthCode (bits w 17 16) (bits w 15 8) (selOfBit (bits w 18 18))) ∨
     (bits w 7 0 = 0x03 ∧ bits w 31 18 = 0 ∧ i = setOfWidthCode (bits w 17 16) (bits w 15 8)) ∨
     (bits w 7 0 = 0x04 ∧ bits w 31 18 = 0 ∧ i = appendOfWidthCode (bits w 17 16) (bits w 15 8)) ∨
     (bits w 7 0 = 0x05 ∧ bits w 31 19 = 0 ∧ bits w 17 8 = 0 ∧
        i = .length (selOfBit (bits w 18 18))) ∨
     (bits w 7 0 = 0x10 ∧ bits w 31 24 = 0 ∧ i = .build (bits w 15 8) (bits w 23 16)) ∨
     (bits w 7 0 = 0x11 ∧ bits w 31 9 = 0 ∧
        i = if bits w 8 8 = 0 then Instr.rank0 else Instr.rank1) ∨
     (bits w 7 0 = 0x20 ∧ bits w 31 8 = 0 ∧ i = .choose) ∨
     (bits w 7 0 = 0x21 ∧ bits w 31 8 = 0 ∧ i = .floorlog2) ∨
     (bits w 7 0 = 0x22 ∧ bits w 31 16 = 0 ∧ i = .popcount (bits w 15 8)) ∨
     (bits w 7 0 = 0x23 ∧ bits w 31 16 = 0 ∧ i = .encode (bits w 15 8)) ∨
     (bits w 7 0 = 0x24 ∧ bits w 31 16 = 0 ∧ i = .decode (bits w 15 8))) := by
  unfold decode at hd
  split at hd
  · simp at hd
  · rename_i h0
    refine ⟨by simpa using h0, ?_⟩
    split at hd
    case h_13 => simp at hd
    case h_5 h1 =>
      split at hd
      · simp at hd
      · rename_i h2
        simp only [not_or, ne_eq, not_not] at h2
        simp only [Option.some.injEq] at hd
        simp [h1, h2.1, h2.2, hd.symm]
    case h_7 h1 =>
      split at hd
      · simp at hd
      · rename_i h2
        simp only [ne_eq, not_not] at h2
        split at hd <;> rename_i h3 <;> simp only [Option.some.injEq] at hd <;>
          simp [h1, h2, h3, hd.symm]
    all_goals
      rename_i h1
      split at hd
      · simp at hd
      · rename_i h2
        simp only [ne_eq, not_not] at h2
        simp only [Option.some.injEq] at hd
        simp [h1, h2, hd.symm]

end Sys2Proof
end

