-- ==== Sys2Proof/Laws/Rrr.lean ====
section
/-! SUPPORT. The RRR index: the geometry and its field widths (rules R181 to R184), IDX_GEOM and its
fields (rule R28), the positions of the layout (rule R186), and the ones of a block (rules R185,
R187). -/

namespace Sys2Proof.Machine

/-! ### Geometry -/

theorem ceilDiv_le {a b : Nat} (hb : 0 < b) : a ≤ ceilDiv a b * b ∧ ceilDiv a b * b < a + b := by
  unfold ceilDiv
  have h1 := Nat.div_add_mod (a + b - 1) b
  have h2 := Nat.mod_lt (a + b - 1) hb
  rw [Nat.mul_comm] at h1
  omega

/-- A block or superblock index is below the count exactly when its start is below the size. -/
theorem lt_ceilDiv {a b k : Nat} (hb : 0 < b) : k < ceilDiv a b ↔ k * b < a := by
  obtain ⟨h1, h2⟩ := ceilDiv_le (a := a) hb
  constructor
  · intro h
    have := Nat.mul_le_mul_right b (Nat.succ_le_of_lt h)
    rw [Nat.succ_mul] at this
    omega
  · intro h
    exact Nat.lt_of_mul_lt_mul_right (h.trans_le h1)

theorem choose_lt (b k : Nat) (h : b ≤ 64) : b.choose k < 2 ^ 61 := by
  calc b.choose k ≤ (64).choose k := Nat.choose_le_choose _ h
    _ ≤ (64).choose 32 := Nat.choose_le_middle k 64
    _ < 2 ^ 61 := by rw [← choose_eq]; decide +kernel

theorem bw_block_le {b : Nat} (h : b ≤ 64) : bw b ≤ 7 := bw_mono_bound (by omega) (by omega)

theorem bw_offset_le {b : Nat} (h : b ≤ 64) : bw (choose b (b / 2)) ≤ 61 := by
  have := choose_lt b (b / 2) h
  rw [choose_eq]
  exact bw_mono_bound (by omega) this

theorem bw_one_le {x : Nat} (h : x < 2 ^ 64) (hx : x ≠ 0) : 1 ≤ bw x :=
  Nat.one_le_iff_ne_zero.mpr (bw_ne_zero h hx)

theorem floorLog2_le {n : Nat} (h : n < 2 ^ 64) : floorLog2 n ≤ 63 := by
  have := bw_le h
  unfold floorLog2
  split <;> omega

/-- The geometry of BUILD is legal for every n, RBS and RSS it admits (rules R28, R181). -/
theorem Geometry.legal_make {n rbs rss : Nat} (hn : n < 2 ^ 64) (hb : rbs ≤ 64) (hs : rss < 256) :
    (Geometry.make n rbs rss).legal := by
  have hl := floorLog2_le hn
  have h1 : 1 ≤ chosenBlockSize n rbs ∧ chosenBlockSize n rbs ≤ 64 := by
    unfold chosenBlockSize; split <;> omega
  have h2 : 2 ≤ chosenSuperSize n rss ∧ chosenSuperSize n rss ≤ 255 := by
    unfold chosenSuperSize; split <;> omega
  have hc := choose_lt (chosenBlockSize n rbs) (chosenBlockSize n rbs / 2) h1.2
  have hc0 : choose (chosenBlockSize n rbs) (chosenBlockSize n rbs / 2) ≠ 0 := by
    rw [choose_eq]; exact (Nat.choose_pos (by omega)).ne'
  rw [← choose_eq] at hc
  exact ⟨h1.1, h1.2, h2.1, h2.2, hn, floorLog2_add_one (by omega) (by omega),
    floorLog2_add_one (by omega) hc0, rfl⟩

/-- The fields of IDX_GEOM read back (rule R28). -/
theorem geomField_word {g : Geometry} (hb : g.b < 256) (hs : g.s < 256) (hc : g.cfs < 256)
    (ho : g.ofs < 256) (hr : g.crfs < 256) :
    geomField g.word 0 = g.b ∧ geomField g.word 8 = g.s ∧ geomField g.word 16 = g.cfs ∧
      geomField g.word 24 = g.ofs ∧ geomField g.word 32 = g.crfs := by
  simp only [geomField, Geometry.word, BitVec.toNat_ofNat]
  omega

theorem Geometry.legal.bounds {g : Geometry} (h : g.legal) :
    g.cfs ≤ 7 ∧ g.ofs ≤ 61 ∧ g.crfs ≤ 64 := by
  obtain ⟨-, h2, -, -, h5, h6, h7, h8⟩ := h
  rw [h6, h7, h8]
  exact ⟨bw_block_le h2, bw_offset_le h2, bw_le h5⟩

/-- A state that holds n and the word of a legal geometry holds that geometry. -/
theorem State.geometry_eq {s : State} {g : Geometry} (h : g.legal) (hn : s.idxN = toWord g.n)
    (hg : s.idxGeom = g.word) : s.geometry = g := by
  obtain ⟨h1, h2, h3⟩ := h.bounds
  obtain ⟨-, h5, -, h7, h8, -⟩ := h
  obtain ⟨e1, e2, e3, e4, e5⟩ :=
    geomField_word (g := g) (by omega) (by omega) (by omega) (by omega) (by omega)
  rw [State.geometry, hn, hg, e1, e2, e3, e4, e5, BitVec.toNat_ofNat, Nat.mod_eq_of_lt h8]

/-! ### Positions -/

/-- The first position past the fields of the first j blocks and of their superblocks' headers. -/
def Geometry.endOf (g : Geometry) (j : Nat) : Nat := ceilDiv j g.s * g.crfs + j * g.sbs

theorem Geometry.hdr_eq (g : Geometry) (k : Nat) : g.hdr k = k * g.crfs + k * g.s * g.sbs := by
  rw [Geometry.hdr, Geometry.ssbs]; ring

theorem Geometry.cls_eq (g : Geometry) (j : Nat) :
    g.cls j = (j / g.s + 1) * g.crfs + j * g.sbs := by
  have h := Nat.div_add_mod j g.s
  rw [Geometry.cls, Geometry.ssbs]
  calc j / g.s * (g.crfs + g.s * g.sbs) + g.crfs + j % g.s * g.sbs
      = (j / g.s + 1) * g.crfs + (g.s * (j / g.s) + j % g.s) * g.sbs := by ring
    _ = _ := by rw [h]

theorem ceilDiv_succ {j s : Nat} (hs : 0 < s) : ceilDiv (j + 1) s = j / s + 1 := by
  rw [ceilDiv, show j + 1 + s - 1 = j + s by omega, Nat.add_div_right _ hs]

/-- Where the header of block j's superblock goes, when j starts one. -/
theorem Geometry.endOf_of_first {g : Geometry} {j : Nat} (hs : 0 < g.s) (h : j % g.s = 0) :
    g.endOf j = g.hdr (j / g.s) ∧ g.endOf j + g.crfs = g.cls j := by
  obtain ⟨k, rfl⟩ := Nat.dvd_of_mod_eq_zero h
  have hk : ceilDiv (g.s * k) g.s = k := by
    rw [ceilDiv, show g.s * k + g.s - 1 = (g.s - 1) + g.s * k by omega, Nat.add_mul_div_left _ _ hs,
      Nat.div_eq_of_lt (by omega), Nat.zero_add]
  rw [Geometry.endOf, Geometry.hdr_eq, Geometry.cls_eq, hk, Nat.mul_div_cancel_left _ hs]
  constructor <;> ring

theorem Geometry.endOf_of_rest {g : Geometry} {j : Nat} (hs : 0 < g.s) (h : j % g.s ≠ 0) :
    g.endOf j = g.cls j := by
  obtain ⟨i, rfl⟩ := Nat.exists_eq_succ_of_ne_zero (show j ≠ 0 by rintro rfl; simp at h)
  rw [Geometry.endOf, Geometry.cls_eq, ceilDiv_succ hs]
  have : (i + 1) / g.s = i / g.s := by
    rw [Nat.succ_div, if_neg (fun hd => h (Nat.mod_eq_zero_of_dvd hd)), Nat.add_zero]
  rw [Nat.succ_eq_add_one, this]

theorem Geometry.endOf_succ {g : Geometry} {j : Nat} (hs : 0 < g.s) :
    g.endOf (j + 1) = g.cls j + g.cfs + g.ofs := by
  rw [Geometry.endOf, Geometry.cls_eq, ceilDiv_succ hs, Geometry.sbs]; ring

theorem Geometry.endOf_mono {g : Geometry} {i j : Nat} (hs : 0 < g.s) (h : i ≤ j) :
    g.endOf i ≤ g.endOf j := by
  have : ceilDiv i g.s ≤ ceilDiv j g.s := Nat.div_le_div_right (by omega)
  exact Nat.add_le_add (Nat.mul_le_mul_right _ this) (Nat.mul_le_mul_right _ h)

/-- A header written lies before the end of the blocks from its own first one on. -/
theorem Geometry.hdr_le_endOf {g : Geometry} {k j : Nat} (hs : 0 < g.s) (h : k * g.s < j) :
    g.hdr k + g.crfs ≤ g.endOf j := by
  have h1 := Geometry.endOf_succ (g := g) (j := k * g.s) hs
  have h2 := (Geometry.endOf_of_first (g := g) (j := k * g.s) hs (Nat.mul_mod_left _ _))
  rw [Nat.mul_div_cancel _ hs] at h2
  have h3 := Geometry.endOf_mono (g := g) hs (Nat.succ_le_of_lt h)
  rw [Nat.succ_eq_add_one] at h3
  omega

theorem Geometry.endOf_blocks (g : Geometry) : g.endOf g.blocks = g.cap := rfl

/-- A header lies within IDX (rules R186, R188). -/
theorem Geometry.hdr_le_cap {g : Geometry} {k : Nat} (hs : 0 < g.s) (h : k < g.supers) :
    g.hdr k + g.crfs ≤ g.cap :=
  Geometry.hdr_le_endOf hs ((lt_ceilDiv hs).mp h)

/-- The fields of a block lie within IDX (rules R186, R188). -/
theorem Geometry.cls_le_cap {g : Geometry} {j : Nat} (hs : 0 < g.s) (h : j < g.blocks) :
    g.cls j + g.cfs + g.ofs ≤ g.cap := by
  rw [← Geometry.endOf_succ hs]
  exact Geometry.endOf_mono hs h

/-- The class field of block t of superblock k, as the walk of rule R194 reaches it. -/
theorem Geometry.cls_in_super (g : Geometry) {k t : Nat} (h : t < g.s) :
    g.cls (k * g.s + t) = k * g.ssbs + g.crfs + t * g.sbs := by
  rw [Geometry.cls, Nat.mul_comm k g.s, Nat.mul_add_div (by omega), Nat.div_eq_of_lt h,
    Nat.mul_add_mod, Nat.mod_eq_of_lt h, Nat.add_zero]

/-- Where the walk of rule R194 goes for 0 < i ≤ n: the superblock it starts in exists, the full
blocks it sums and the block of the partial rank are in that superblock and exist, and together they
end at i. -/
theorem Geometry.walk {g : Geometry} (hb : 0 < g.b) (hs : 0 < g.s) {i sb full rem : Nat} (h0 : 0 < i)
    (hi : i ≤ g.n) (hsb : sb = g.walkStart i) (hfull : full = (i - sb * (g.s * g.b)) / g.b)
    (hrem : rem = (i - sb * (g.s * g.b)) % g.b) :
    sb < g.supers ∧ full ≤ g.s ∧ rem < g.b ∧ (sb * g.s + full) * g.b + rem = i ∧
      (∀ t, t < full → sb * g.s + t < g.blocks) ∧
      (0 < rem → full < g.s ∧ sb * g.s + full < g.blocks) := by
  have hM : g.n ≤ g.blocks * g.b := (ceilDiv_le hb).1
  have hH : g.blocks ≤ g.supers * g.s := (ceilDiv_le hs).1
  have hMp : 0 < g.blocks := (lt_ceilDiv hb).mpr (by omega)
  have hHp : 0 < g.supers := (lt_ceilDiv hs).mpr (by omega)
  have hpos : 0 < g.s * g.b := Nat.mul_pos hs hb
  have hst : sb < g.supers ∧ sb * (g.s * g.b) ≤ i ∧
      (i < (sb + 1) * (g.s * g.b) ∨ i = (sb + 1) * (g.s * g.b)) := by
    rw [hsb, Geometry.walkStart]
    have d1 := Nat.div_mul_le_self i (g.s * g.b)
    have d2 : i < (i / (g.s * g.b) + 1) * (g.s * g.b) := by
      rw [Nat.mul_comm]; exact Nat.lt_mul_div_succ i hpos
    rcases Nat.lt_or_ge (i / (g.s * g.b)) g.supers with hlt | hge
    · rw [Nat.min_eq_left (by omega)]; exact ⟨hlt, d1, .inl d2⟩
    · rw [Nat.min_eq_right (by omega)]
      have k1 : g.supers * (g.s * g.b) ≤ i := (Nat.mul_le_mul_right _ hge).trans d1
      have k2 : g.blocks * g.b ≤ g.supers * (g.s * g.b) := by
        rw [← Nat.mul_assoc]; exact Nat.mul_le_mul_right _ hH
      have k3 : (g.supers - 1) * (g.s * g.b) ≤ g.supers * (g.s * g.b) :=
        Nat.mul_le_mul_right _ (by omega)
      rw [show g.supers - 1 + 1 = g.supers by omega]
      exact ⟨by omega, by omega, .inr (by omega)⟩
  obtain ⟨t1, t2, t3⟩ := hst
  clear hsb
  obtain ⟨rest, rfl⟩ := Nat.exists_eq_add_of_le t2
  rw [Nat.add_sub_cancel_left] at hfull hrem
  have hrest : rest ≤ g.s * g.b := by rw [Nat.add_mul, Nat.one_mul] at t3; omega
  have hdm : full * g.b + rem = rest := by
    rw [hfull, hrem, Nat.mul_comm]; exact Nat.div_add_mod rest g.b
  have hml : rem < g.b := hrem ▸ Nat.mod_lt rest hb
  have hsum : (sb * g.s + full) * g.b + rem = sb * (g.s * g.b) + rest := by
    rw [Nat.add_mul, Nat.mul_assoc]; omega
  have hfs : full * g.b ≤ g.s * g.b := by omega
  refine ⟨t1, Nat.le_of_mul_le_mul_right hfs hb, hml, hsum, fun t ht => (lt_ceilDiv hb).mpr ?_,
    fun hr => ⟨Nat.lt_of_mul_lt_mul_right (a := g.b) (by omega), (lt_ceilDiv hb).mpr (by omega)⟩⟩
  have : (sb * g.s + t) * g.b < (sb * g.s + full) * g.b :=
    Nat.mul_lt_mul_of_pos_right (by omega) hb
  omega

/-! ### The ones of a sequence -/

theorem onesBelow_add (B : Nat → Bool) (a m : Nat) :
    onesBelow B (a + m) = onesBelow B a + (List.range m).countP fun t => B (a + t) := by
  induction m with
  | zero => simp
  | succ m ih =>
    rw [← Nat.add_assoc, onesBelow, List.range_succ, List.countP_append, List.range_succ,
      List.countP_append, ← Nat.add_assoc, ← ih]
    rfl

theorem onesBelow_le (B : Nat → Bool) (i : Nat) : onesBelow B i ≤ i := by
  unfold onesBelow
  exact (List.countP_le_length).trans_eq (List.length_range)

theorem testBit_sum (P : Nat → Prop) [DecidablePred P] (b k : Nat) :
    (∑ t ∈ Finset.range b, if P t then 2 ^ t else 0).testBit k = (decide (k < b) && decide (P k)) ∧
      (∑ t ∈ Finset.range b, if P t then 2 ^ t else 0) < 2 ^ b := by
  induction b generalizing k with
  | zero => simp
  | succ b ih =>
    have hlt := (ih 0).2
    rw [Finset.sum_range_succ]
    constructor
    · rw [Nat.add_comm, show (if P b then 2 ^ b else 0) = 2 ^ b * (if P b then 1 else 0) by split <;> simp,
        Nat.testBit_two_pow_mul_add _ hlt, (ih k).1]
      by_cases h : k < b
      · simp [h, show k < b + 1 by omega]
      · rw [if_neg h]
        by_cases h' : k = b
        · subst h'; by_cases hp : P k <;> simp [hp]
        · simp only [show ¬ k < b + 1 by omega, decide_false, Bool.false_and]
          split
          · exact Nat.testBit_lt_two_pow (by
              have : 2 ^ 1 ≤ 2 ^ (k - b) := Nat.pow_le_pow_right (by decide) (by omega)
              omega)
          · exact Nat.zero_testBit _
    · rw [Nat.pow_succ]; split <;> omega

theorem testBit_blockValue (B : Nat → Bool) (n b j k : Nat) :
    (blockValue B n b j).testBit k
      = (decide (k < b) && decide (j * b + k < n ∧ B (j * b + k) = true)) :=
  (testBit_sum (fun t => j * b + t < n ∧ B (j * b + t) = true) b k).1

theorem blockValue_lt (B : Nat → Bool) (n b j : Nat) : blockValue B n b j < 2 ^ b :=
  (testBit_sum (fun t => j * b + t < n ∧ B (j * b + t) = true) b 0).2

theorem popcount_of_high {m w V : Nat} (h : m ≤ w) (hz : ∀ k, m ≤ k → V.testBit k = false) :
    popcount w V = popcount m V := by
  obtain ⟨d, rfl⟩ := Nat.exists_eq_add_of_le h
  rw [popcount_eq_countP, popcount_eq_countP, List.range_add, List.countP_append, List.countP_map]
  simp [Function.comp_def, hz]

/-- The ones among the first m bits of block j (rules R187, R194). -/
theorem popcount_blockValue {B : Nat → Bool} {n b j m : Nat} (hm : m ≤ b) (h : j * b + m ≤ n) :
    onesBelow B (j * b) + popcount m (blockValue B n b j) = onesBelow B (j * b + m) := by
  rw [onesBelow_add, popcount_eq_countP]
  congr 1
  refine List.countP_congr fun k hk => ?_
  have hk := List.mem_range.mp hk
  rw [testBit_blockValue]
  simp [show k < b by omega, show j * b + k < n by omega]

/-- The class of block j, short or not, takes the cumulative rank to the end of the block. -/
theorem popcount_block {B : Nat → Bool} {n b j : Nat} (h : j * b ≤ n) :
    onesBelow B (j * b) + popcount b (blockValue B n b j) = onesBelow B (min ((j + 1) * b) n) := by
  rw [Nat.succ_mul]
  rcases Nat.le_total (j * b + b) n with h1 | h1
  · rw [Nat.min_eq_left h1]; exact popcount_blockValue (Nat.le_refl b) h1
  · have hz : popcount b (blockValue B n b j) = popcount (n - j * b) (blockValue B n b j) := by
      refine popcount_of_high (by omega) fun k hk => ?_
      rw [testBit_blockValue, decide_eq_false (by omega : ¬ (j * b + k < n ∧ _)), Bool.and_false]
    rw [Nat.min_eq_right h1, hz, popcount_blockValue (by omega) (by omega)]
    congr 1
    omega

end Sys2Proof.Machine
end

