-- ==== Sys2Proof/Laws/Index.lean ====
section
/-! SUPPORT. What BUILD writes into IDX and what the rank walk makes of it: the image holds the
contents of rule R187, and on such contents the walk of rule R194 counts ones. -/

namespace Sys2Proof.Machine

/-! ### The construction -/

/-- Block j's raw value, as the construction reads it (rules R185, R189). -/
theorem Container.memRead_block (src : Container) {n b j : Nat} (h : j * b ≤ n) :
    src.memRead (j * b) (min b (n - j * b)) = blockValue src.bit n b j := by
  refine Nat.eq_of_testBit_eq fun k => ?_
  rw [Container.testBit_memRead, testBit_blockValue]
  by_cases hk : k < b <;> by_cases hn : j * b + k < n <;> simp [hk, hn]
  · omega
  · omega

/-- The construction of rule R189 after j blocks over B, started from the image c0: where its
variables stand, which fields are in place, and that it has touched no bit past them. -/
structure BuiltUpTo (g : Geometry) (B : Nat → Bool) (c0 : Container) (j : Nat) (k : BuildCursor) :
    Prop where
  index : k.j = j
  inCursor : k.inCursor = min (j * g.b) g.n
  outCursor : k.outCursor = g.endOf j
  cumRank : k.cumRank = onesBelow B (min (j * g.b) g.n)
  len : k.image.len = c0.len
  wf : k.image.bytes.wf = true
  rest : ∀ p, g.endOf j ≤ p → k.image.bit p = c0.bit p
  headers : ∀ i, i * g.s < j → k.image.memRead (g.hdr i) g.crfs = onesBelow B (i * g.s * g.b)
  blocks : ∀ i, i < j →
    k.image.memRead (g.cls i) g.cfs = popcount g.b (blockValue B g.n g.b i) ∧
      k.image.memRead (g.off i) g.ofs = (encodeBlock g.b (blockValue B g.n g.b i)).2

/-- The header step puts the header of the superblock of block j in place, where j starts one. -/
theorem BuiltUpTo.header {g : Geometry} (hl : g.legal) {B : Nat → Bool} {c0 : Container} {j : Nat}
    {k : BuildCursor} (hj : j < g.blocks) (h : BuiltUpTo g B c0 j k) :
    ∃ im, buildHeader g k = { k with image := im, outCursor := g.cls j } ∧ im.len = c0.len ∧
      im.bytes.wf = true ∧ (∀ p, g.cls j ≤ p → im.bit p = c0.bit p) ∧
      (∀ i, i * g.s < j + 1 → im.memRead (g.hdr i) g.crfs = onesBelow B (i * g.s * g.b)) ∧
      ∀ p m, p + m ≤ g.endOf j → im.memRead p m = k.image.memRead p m := by
  obtain ⟨h1, h2, h3, h4, h5, h6, h7, h8⟩ := hl
  have hs : 0 < g.s := by omega
  have hjn : j * g.b < g.n := (lt_ceilDiv h1).mp hj
  obtain ⟨a1, a2, a3, a4, a5, a6, a7, a8, a9⟩ := h
  rw [Nat.min_eq_left hjn.le] at a4
  unfold buildHeader
  rw [a1]
  by_cases hm : j % g.s = 0
  · rw [if_pos hm]
    have hf := Geometry.endOf_of_first (g := g) hs hm
    refine ⟨k.image.memWrite k.outCursor g.crfs k.cumRank, by rw [a3, hf.2], by simpa using a5,
      Container.wf_memWrite a6 _ _ _, ?_, ?_, ?_⟩
    · intro p hp
      rw [Container.bit_memWrite a6, if_neg (by omega), a7 p (by omega)]
    · intro i hi
      by_cases hij : i * g.s = j
      · have : i = j / g.s := by rw [← hij, Nat.mul_div_cancel _ hs]
        rw [a3, hf.1, ← this, Container.memRead_memWrite_same a6, a4, hij]
        apply Nat.mod_eq_of_lt
        have := onesBelow_le B (j * g.b)
        have := lt_two_pow_bw h5
        rw [h8]; omega
      · rw [Container.memRead_memWrite_disjoint a6, a8 i (by omega)]
        left; rw [a3]; exact Geometry.hdr_le_endOf hs (by omega)
    · intro p m hp
      rw [Container.memRead_memWrite_disjoint a6 (by omega)]
  · rw [if_neg hm]
    have hf := Geometry.endOf_of_rest (g := g) hs hm
    refine ⟨k.image, by rw [← hf, ← a3, ← a1], a5, a6, fun p hp => a7 p (by omega), ?_,
      fun _ _ _ => rfl⟩
    intro i hi
    by_cases hij : i * g.s = j
    · exact absurd (by rw [← hij, Nat.mul_mod_left]) hm
    · exact a8 i (by omega)

/-- One turn of the loop of rule R189. -/
theorem BuiltUpTo.succ {g : Geometry} (hl : g.legal) {src c0 : Container} {j : Nat}
    {k : BuildCursor} (hj : j < g.blocks) (h : BuiltUpTo g src.bit c0 j k) :
    BuiltUpTo g src.bit c0 (j + 1) (buildBlock g src (buildHeader g k)) := by
  obtain ⟨im, e, b1, b2, b3, b4, b5⟩ := h.header hl hj
  obtain ⟨h1, h2, h3, h4, h5, h6, h7, h8⟩ := hl
  have hs : 0 < g.s := by omega
  have hjn : j * g.b < g.n := (lt_ceilDiv h1).mp hj
  obtain ⟨a1, a2, a3, a4, a5, a6, a7, a8, a9⟩ := h
  rw [Nat.min_eq_left hjn.le] at a2 a4
  have hcls := Geometry.endOf_succ (g := g) (j := j) hs
  have hend : g.endOf j ≤ g.cls j := by
    by_cases hm : j % g.s = 0
    · have := (Geometry.endOf_of_first (g := g) hs hm).2; omega
    · exact (Geometry.endOf_of_rest (g := g) hs hm).le
  rw [e, buildBlock]
  simp only [a2, a4]
  rw [Container.memRead_block _ hjn.le]
  have wf1 := Container.wf_memWrite b2 (g.cls j) g.cfs
    (encodeBlock g.b (blockValue src.bit g.n g.b j)).1
  have hpc := popcount_block (B := src.bit) (n := g.n) (b := g.b) (j := j) hjn.le
  have hsm : (j + 1) * g.b = j * g.b + g.b := Nat.succ_mul _ _
  refine ⟨by simp [a1], by dsimp only; rw [hsm]; omega, hcls.symm, ?_, by simpa using b1,
    Container.wf_memWrite wf1 _ _ _, ?_, ?_, ?_⟩
  · dsimp only; rw [encodeBlock_eq, ← hpc]
  · intro p hp
    dsimp only
    rw [Container.bit_memWrite wf1, Container.bit_memWrite b2, if_neg (by omega),
      if_neg (by omega), b3 p (by omega)]
  · intro i hi
    dsimp only
    have : g.hdr i + g.crfs ≤ g.cls j := by
      by_cases hij : i * g.s = j
      · have hf := Geometry.endOf_of_first (g := g) (j := j) hs (by rw [← hij, Nat.mul_mod_left])
        rw [← hij, Nat.mul_div_cancel _ hs, hij] at hf
        omega
      · have := Geometry.hdr_le_endOf (g := g) (k := i) (j := j) hs (by omega); omega
    rw [Container.memRead_memWrite_disjoint wf1 (by omega),
      Container.memRead_memWrite_disjoint b2 (by omega), b4 i hi]
  · intro i hi
    dsimp only
    by_cases hij : i = j
    · subst hij
      rw [Container.memRead_memWrite_disjoint wf1 (by omega), Container.memRead_memWrite_same b2,
        Geometry.off, Container.memRead_memWrite_same wf1, encodeBlock_eq]
      constructor
      · apply Nat.mod_eq_of_lt
        have := popcount_le g.b (blockValue src.bit g.n g.b i)
        have := lt_two_pow_bw (x := g.b) (by omega)
        rw [h6]; dsimp only; omega
      · apply Nat.mod_eq_of_lt
        have := scanOffset_lt g.b (blockValue src.bit g.n g.b i)
        have := Nat.choose_le_middle (popcount g.b (blockValue src.bit g.n g.b i)) g.b
        have hc := choose_lt g.b (g.b / 2) h2
        have hb := lt_two_pow_bw (x := choose g.b (g.b / 2)) (by rw [choose_eq]; omega)
        rw [← h7, choose_eq] at hb
        dsimp only; omega
    · have hi' : g.cls i + g.cfs + g.ofs ≤ g.endOf j := by
        rw [← Geometry.endOf_succ hs]; exact Geometry.endOf_mono hs (by omega)
      have hoff : g.off i = g.cls i + g.cfs := rfl
      rw [hoff, Container.memRead_memWrite_disjoint wf1 (by omega),
        Container.memRead_memWrite_disjoint b2 (by omega),
        Container.memRead_memWrite_disjoint wf1 (by omega),
        Container.memRead_memWrite_disjoint b2 (by omega), b5 _ _ (by omega), b5 _ _ (by omega),
        ← hoff]
      exact a9 i (by omega)

theorem BuiltUpTo.loop {g : Geometry} (hl : g.legal) {src c0 : Container} {m j : Nat}
    {k : BuildCursor} (hj : j + m = g.blocks) (h : BuiltUpTo g src.bit c0 j k) :
    BuiltUpTo g src.bit c0 g.blocks (buildLoop g src m k) := by
  induction m generalizing j k with
  | zero => simp only [Nat.add_zero] at hj; subst hj; exact h
  | succ m ih => exact ih (by omega) (h.succ hl (by omega))

/-- What BUILD commits to IDX: the length CAP, the canonical form, the contents of rule R187, and no
bit at or past CAP changed. -/
theorem buildImage_spec {g : Geometry} (hl : g.legal) (src : Container) {idx : Container}
    (hw : idx.bytes.wf = true) :
    (buildImage g src idx).len = toWord g.cap ∧ (buildImage g src idx).bytes.wf = true ∧
      g.holds (buildImage g src idx) src.bit ∧
      ∀ p, g.cap ≤ p → (buildImage g src idx).bit p = idx.bit p := by
  have hs : 0 < g.s := by have := hl.2.2.1; omega
  have hw' : (idx.setLen g.cap).bytes.wf = true := hw
  have h0 : g.endOf 0 = 0 := by
    rw [Geometry.endOf, ceilDiv, Nat.div_eq_of_lt (by omega)]; simp
  have h : BuiltUpTo g src.bit ((idx.setLen g.cap).zeroFill g.cap) 0
      { j := 0, inCursor := 0, outCursor := 0, cumRank := 0
        image := (idx.setLen g.cap).zeroFill g.cap } :=
    ⟨rfl, by simp, h0.symm, by simp [onesBelow], rfl, Container.wf_zeroFill hw' _, fun _ _ => rfl,
      by simp, by simp⟩
  have h := h.loop hl (m := g.blocks) (by omega)
  refine ⟨h.len.trans (by simp), h.wf,
    ⟨fun k hk => h.headers k ((lt_ceilDiv hs).mp hk), fun j hj => h.blocks j hj⟩, fun p hp => ?_⟩
  refine (h.rest p hp).trans ?_
  rw [Container.bit_zeroFill hw', if_neg (by omega), Container.bit_setLen]

/-! ### The rank walk -/

/-- On the contents of rule R187 the class sum of consecutive blocks of one superblock takes the
cumulative rank from the first to the end of the last. -/
theorem classSum_eq {g : Geometry} (hb : 0 < g.b) {idx : Container} {B : Nat → Bool}
    (hh : g.holds idx B) {sb m t : Nat} (ht : t + m ≤ g.s) (hn : (sb * g.s + t + m) * g.b ≤ g.n) :
    onesBelow B ((sb * g.s + t) * g.b)
        + classSum g idx m (sb * g.ssbs + g.crfs + t * g.sbs)
      = onesBelow B ((sb * g.s + t + m) * g.b) := by
  induction m generalizing t with
  | zero => rfl
  | succ m ih =>
    have hle : (sb * g.s + t + 1) * g.b ≤ g.n :=
      (Nat.mul_le_mul_right _ (by omega)).trans hn
    have hlt : (sb * g.s + t) * g.b < g.n := by rw [Nat.succ_mul] at hle; omega
    have hc := (hh.2 _ ((lt_ceilDiv hb).mpr hlt)).1
    rw [Geometry.cls_in_super g (by omega)] at hc
    have hp := popcount_block (B := B) hlt.le
    rw [Nat.min_eq_left hle] at hp
    have hm : sb * g.s + t + (m + 1) = sb * g.s + (t + 1) + m := by ring
    have hq : sb * g.ssbs + g.crfs + t * g.sbs + g.sbs
        = sb * g.ssbs + g.crfs + (t + 1) * g.sbs := by ring
    rw [hm] at hn ⊢
    rw [classSum, hc, ← Nat.add_assoc, hp, hq]
    exact ih (t := t + 1) (by omega) hn

/-- The walk of rule R194 answers the number of ones below i. -/
theorem rankOnes_eq {g : Geometry} (hl : g.legal) {idx : Container} {B : Nat → Bool}
    (hh : g.holds idx B) {i : Nat} (hi : i ≤ g.n) : rankOnes g idx i = onesBelow B i := by
  obtain ⟨h1, h2, h3, h4, -⟩ := hl
  have hs : 0 < g.s := by omega
  unfold rankOnes
  by_cases h0 : i = 0
  · rw [if_pos h0, h0]; rfl
  rw [if_neg h0]
  dsimp only
  obtain ⟨w1, w2, w3, w4, w5, w6⟩ := Geometry.walk h1 hs (by omega) hi rfl rfl rfl
  generalize g.walkStart i = sb at *
  generalize (i - sb * (g.s * g.b)) / g.b = full at *
  generalize (i - sb * (g.s * g.b)) % g.b = rem at *
  have hhdr := hh.1 sb w1
  have hsum := classSum_eq h1 hh (sb := sb) (m := full) (t := 0) (by omega)
    (by rw [Nat.add_zero]; omega)
  rw [Nat.zero_mul, Nat.add_zero, Nat.add_zero] at hsum
  rw [Geometry.hdr] at hhdr
  rw [hhdr, hsum]
  by_cases hr : 0 < rem
  · obtain ⟨hf, hj⟩ := w6 hr
    obtain ⟨hc, ho⟩ := hh.2 _ hj
    rw [Geometry.off, Geometry.cls_in_super g hf] at ho
    rw [Geometry.cls_in_super g hf] at hc
    rw [if_pos hr, partialRank]
    rw [hc, ho, encodeBlock_eq, unrank, unrankScan_scanOffset,
      Nat.mod_eq_of_lt (blockValue_lt _ _ _ _), popcount_blockValue w3.le (by omega), w4]
  · rw [if_neg hr]
    rw [show rem = 0 by omega, Nat.add_zero] at w4
    rw [w4]

end Sys2Proof.Machine
end

