-- ==== Sys2Proof/Laws/PerInstr.lean ====
section
/-! SUPPORT. One fact per command: its word matches its row of spec/opcode_table.json (rule R78). -/

namespace Sys2Proof.Laws.TableRow

/-- The word of a well-formed command has the fixed bits of its row. -/
def Statement (i : Instr) : Prop :=
  i.wellFormed = true → encode i &&& (tableRow i).mask = (tableRow i).pattern

/-- One 8-bit field: 256 words, each checked. -/
theorem of_byte {f : Nat → Instr} (hf : ∀ v, (f v).wellFormed = fitsByte v)
    (h : ∀ v, v < 256 → encode (f v) &&& (tableRow (f v)).mask = (tableRow (f v)).pattern) (v : Nat) :
    Statement (f v) := fun hw => h v (by simpa [hf, fitsByte] using hw)

theorem new : Statement .new := fun _ => by decide
theorem get8 (bs : Nat) (sel : Sel) : Statement (.get8 bs sel) := by
  cases sel <;> exact of_byte (f := fun v => .get8 v _) (fun _ => rfl) (by decide +kernel) bs
theorem get16 (bs : Nat) (sel : Sel) : Statement (.get16 bs sel) := by
  cases sel <;> exact of_byte (f := fun v => .get16 v _) (fun _ => rfl) (by decide +kernel) bs
theorem get32 (bs : Nat) (sel : Sel) : Statement (.get32 bs sel) := by
  cases sel <;> exact of_byte (f := fun v => .get32 v _) (fun _ => rfl) (by decide +kernel) bs
theorem get64 (bs : Nat) (sel : Sel) : Statement (.get64 bs sel) := by
  cases sel <;> exact of_byte (f := fun v => .get64 v _) (fun _ => rfl) (by decide +kernel) bs
theorem set8 (bs : Nat) : Statement (.set8 bs) := of_byte (fun _ => rfl) (by decide +kernel) bs
theorem set16 (bs : Nat) : Statement (.set16 bs) := of_byte (fun _ => rfl) (by decide +kernel) bs
theorem set32 (bs : Nat) : Statement (.set32 bs) := of_byte (fun _ => rfl) (by decide +kernel) bs
theorem set64 (bs : Nat) : Statement (.set64 bs) := of_byte (fun _ => rfl) (by decide +kernel) bs
theorem append8 (bs : Nat) : Statement (.append8 bs) :=
  of_byte (fun _ => rfl) (by decide +kernel) bs
theorem append16 (bs : Nat) : Statement (.append16 bs) :=
  of_byte (fun _ => rfl) (by decide +kernel) bs
theorem append32 (bs : Nat) : Statement (.append32 bs) :=
  of_byte (fun _ => rfl) (by decide +kernel) bs
theorem append64 (bs : Nat) : Statement (.append64 bs) :=
  of_byte (fun _ => rfl) (by decide +kernel) bs
theorem length (sel : Sel) : Statement (.length sel) := fun _ => by cases sel <;> decide
theorem rank0 : Statement .rank0 := fun _ => by decide
theorem rank1 : Statement .rank1 := fun _ => by decide
theorem choose : Statement .choose := fun _ => by decide
theorem floorlog2 : Statement .floorlog2 := fun _ => by decide
theorem popcount (wb : Nat) : Statement (.popcount wb) :=
  of_byte (fun _ => rfl) (by decide +kernel) wb
theorem encode (wb : Nat) : Statement (.encode wb) := of_byte (fun _ => rfl) (by decide +kernel) wb
theorem decode (wb : Nat) : Statement (.decode wb) := of_byte (fun _ => rfl) (by decide +kernel) wb

/-- BUILD's mask keeps the opcode of a word whose bits above 23 are 0. -/
theorem build_mask {n : Nat} (hn : n < 2 ^ 24) :
    toWord n &&& 0xFFFFFFFFFF0000FF = toWord (n % 2 ^ 8) := by
  apply BitVec.eq_of_getLsbD_eq
  intro k hk
  have hmask : ∀ k < 24, (0xFFFFFFFFFF0000FF : Word).getLsbD k = decide (k < 8) := by decide
  rw [BitVec.getLsbD_and, BitVec.getLsbD_ofNat, BitVec.getLsbD_ofNat, Nat.testBit_mod_two_pow]
  by_cases h : k < 24
  · rw [hmask k h, Bool.and_assoc, Bool.and_comm (n.testBit k)]
  · have : n.testBit k = false :=
      Nat.testBit_lt_two_pow (Nat.lt_of_lt_of_le hn (Nat.pow_le_pow_right (by decide) (by omega)))
    simp [this]

theorem build (rbs rss : Nat) : Statement (.build rbs rss) := fun hw => by
  simp only [Instr.wellFormed, fitsByte, Bool.and_eq_true, decide_eq_true_eq] at hw
  refine (build_mask (n := 0x10 + rbs * 2 ^ 8 + rss * 2 ^ 16) (by omega)).trans ?_
  rw [show (0x10 + rbs * 2 ^ 8 + rss * 2 ^ 16) % 2 ^ 8 = 0x10 by omega]
  rfl

end Sys2Proof.Laws.TableRow
end

