-- ==== Sys2Proof/Laws/State.lean ====
section
/-! SUPPORT. What each update of the state leaves in each field, so that no later proof unfolds a
record update; the same for each update of STATUS; and that the memories of the state after reset
have the canonical form. -/

namespace Sys2Proof.Machine

/-! ### State.setRes0 -/

@[simp] theorem State.setRes0_cmd (s : State) (v : Nat) : (s.setRes0 v).cmd = s.cmd := rfl
@[simp] theorem State.setRes0_arg0 (s : State) (v : Nat) : (s.setRes0 v).arg0 = s.arg0 := rfl
@[simp] theorem State.setRes0_arg1 (s : State) (v : Nat) : (s.setRes0 v).arg1 = s.arg1 := rfl
@[simp] theorem State.setRes0_res0 (s : State) (v : Nat) : (s.setRes0 v).res0 = toWord v := rfl
@[simp] theorem State.setRes0_res1 (s : State) (v : Nat) : (s.setRes0 v).res1 = s.res1 := rfl
@[simp] theorem State.setRes0_idxN (s : State) (v : Nat) : (s.setRes0 v).idxN = s.idxN := rfl
@[simp] theorem State.setRes0_idxGeom (s : State) (v : Nat) :
    (s.setRes0 v).idxGeom = s.idxGeom := rfl
@[simp] theorem State.setRes0_status (s : State) (v : Nat) : (s.setRes0 v).status = s.status := rfl
@[simp] theorem State.setRes0_src (s : State) (v : Nat) : (s.setRes0 v).src = s.src := rfl
@[simp] theorem State.setRes0_idx (s : State) (v : Nat) : (s.setRes0 v).idx = s.idx := rfl
@[simp] theorem State.setRes0_params (s : State) (v : Nat) : (s.setRes0 v).params = s.params := rfl
@[simp] theorem State.setRes0_agenda (s : State) (v : Nat) : (s.setRes0 v).agenda = s.agenda := rfl
@[simp] theorem State.setRes0_readData (s : State) (v : Nat) :
    (s.setRes0 v).readData = s.readData := rfl
@[simp] theorem State.setRes0_draws (s : State) (v : Nat) : (s.setRes0 v).draws = s.draws := rfl

/-! ### State.setRes1 -/

@[simp] theorem State.setRes1_cmd (s : State) (v : Nat) : (s.setRes1 v).cmd = s.cmd := rfl
@[simp] theorem State.setRes1_arg0 (s : State) (v : Nat) : (s.setRes1 v).arg0 = s.arg0 := rfl
@[simp] theorem State.setRes1_arg1 (s : State) (v : Nat) : (s.setRes1 v).arg1 = s.arg1 := rfl
@[simp] theorem State.setRes1_res0 (s : State) (v : Nat) : (s.setRes1 v).res0 = s.res0 := rfl
@[simp] theorem State.setRes1_res1 (s : State) (v : Nat) : (s.setRes1 v).res1 = toWord v := rfl
@[simp] theorem State.setRes1_idxN (s : State) (v : Nat) : (s.setRes1 v).idxN = s.idxN := rfl
@[simp] theorem State.setRes1_idxGeom (s : State) (v : Nat) :
    (s.setRes1 v).idxGeom = s.idxGeom := rfl
@[simp] theorem State.setRes1_status (s : State) (v : Nat) : (s.setRes1 v).status = s.status := rfl
@[simp] theorem State.setRes1_src (s : State) (v : Nat) : (s.setRes1 v).src = s.src := rfl
@[simp] theorem State.setRes1_idx (s : State) (v : Nat) : (s.setRes1 v).idx = s.idx := rfl
@[simp] theorem State.setRes1_params (s : State) (v : Nat) : (s.setRes1 v).params = s.params := rfl
@[simp] theorem State.setRes1_agenda (s : State) (v : Nat) : (s.setRes1 v).agenda = s.agenda := rfl
@[simp] theorem State.setRes1_readData (s : State) (v : Nat) :
    (s.setRes1 v).readData = s.readData := rfl
@[simp] theorem State.setRes1_draws (s : State) (v : Nat) : (s.setRes1 v).draws = s.draws := rfl

/-! ### State.setSrc -/

@[simp] theorem State.setSrc_cmd (s : State) (c : Container) : (s.setSrc c).cmd = s.cmd := rfl
@[simp] theorem State.setSrc_arg0 (s : State) (c : Container) : (s.setSrc c).arg0 = s.arg0 := rfl
@[simp] theorem State.setSrc_arg1 (s : State) (c : Container) : (s.setSrc c).arg1 = s.arg1 := rfl
@[simp] theorem State.setSrc_res0 (s : State) (c : Container) : (s.setSrc c).res0 = s.res0 := rfl
@[simp] theorem State.setSrc_res1 (s : State) (c : Container) : (s.setSrc c).res1 = s.res1 := rfl
@[simp] theorem State.setSrc_idxN (s : State) (c : Container) : (s.setSrc c).idxN = s.idxN := rfl
@[simp] theorem State.setSrc_idxGeom (s : State) (c : Container) :
    (s.setSrc c).idxGeom = s.idxGeom := rfl
@[simp] theorem State.setSrc_status (s : State) (c : Container) :
    (s.setSrc c).status = s.status := rfl
@[simp] theorem State.setSrc_src (s : State) (c : Container) : (s.setSrc c).src = c := rfl
@[simp] theorem State.setSrc_idx (s : State) (c : Container) : (s.setSrc c).idx = s.idx := rfl
@[simp] theorem State.setSrc_params (s : State) (c : Container) :
    (s.setSrc c).params = s.params := rfl
@[simp] theorem State.setSrc_agenda (s : State) (c : Container) :
    (s.setSrc c).agenda = s.agenda := rfl
@[simp] theorem State.setSrc_readData (s : State) (c : Container) :
    (s.setSrc c).readData = s.readData := rfl
@[simp] theorem State.setSrc_draws (s : State) (c : Container) : (s.setSrc c).draws = s.draws := rfl

/-! ### State.complete -/

@[simp] theorem State.complete_cmd (s : State) : s.complete.cmd = s.cmd := rfl
@[simp] theorem State.complete_arg0 (s : State) : s.complete.arg0 = s.arg0 := rfl
@[simp] theorem State.complete_arg1 (s : State) : s.complete.arg1 = s.arg1 := rfl
@[simp] theorem State.complete_res0 (s : State) : s.complete.res0 = s.res0 := rfl
@[simp] theorem State.complete_res1 (s : State) : s.complete.res1 = s.res1 := rfl
@[simp] theorem State.complete_idxN (s : State) : s.complete.idxN = s.idxN := rfl
@[simp] theorem State.complete_idxGeom (s : State) : s.complete.idxGeom = s.idxGeom := rfl
@[simp] theorem State.complete_status (s : State) : s.complete.status = s.status.complete := rfl
@[simp] theorem State.complete_src (s : State) : s.complete.src = s.src := rfl
@[simp] theorem State.complete_idx (s : State) : s.complete.idx = s.idx := rfl
@[simp] theorem State.complete_params (s : State) : s.complete.params = s.params := rfl
@[simp] theorem State.complete_agenda (s : State) : s.complete.agenda = s.agenda := rfl
@[simp] theorem State.complete_readData (s : State) : s.complete.readData = s.readData := rfl
@[simp] theorem State.complete_draws (s : State) : s.complete.draws = s.draws := rfl

/-! ### State.raise -/

@[simp] theorem State.raise_cmd (s : State) (e : ErrorKind) : (s.raise e).cmd = s.cmd := rfl
@[simp] theorem State.raise_arg0 (s : State) (e : ErrorKind) : (s.raise e).arg0 = s.arg0 := rfl
@[simp] theorem State.raise_arg1 (s : State) (e : ErrorKind) : (s.raise e).arg1 = s.arg1 := rfl
@[simp] theorem State.raise_res0 (s : State) (e : ErrorKind) : (s.raise e).res0 = s.res0 := rfl
@[simp] theorem State.raise_res1 (s : State) (e : ErrorKind) : (s.raise e).res1 = s.res1 := rfl
@[simp] theorem State.raise_idxN (s : State) (e : ErrorKind) : (s.raise e).idxN = s.idxN := rfl
@[simp] theorem State.raise_idxGeom (s : State) (e : ErrorKind) :
    (s.raise e).idxGeom = s.idxGeom := rfl
@[simp] theorem State.raise_status (s : State) (e : ErrorKind) :
    (s.raise e).status = s.status.latch e := rfl
@[simp] theorem State.raise_src (s : State) (e : ErrorKind) : (s.raise e).src = s.src := rfl
@[simp] theorem State.raise_idx (s : State) (e : ErrorKind) : (s.raise e).idx = s.idx := rfl
@[simp] theorem State.raise_params (s : State) (e : ErrorKind) :
    (s.raise e).params = s.params := rfl
@[simp] theorem State.raise_agenda (s : State) (e : ErrorKind) :
    (s.raise e).agenda = s.agenda := rfl
@[simp] theorem State.raise_readData (s : State) (e : ErrorKind) :
    (s.raise e).readData = s.readData := rfl
@[simp] theorem State.raise_draws (s : State) (e : ErrorKind) : (s.raise e).draws = s.draws := rfl

/-! ### State.commitIndex -/

@[simp] theorem State.commitIndex_cmd (s : State) (g : Geometry) :
    (s.commitIndex g).cmd = s.cmd := rfl
@[simp] theorem State.commitIndex_arg0 (s : State) (g : Geometry) :
    (s.commitIndex g).arg0 = s.arg0 := rfl
@[simp] theorem State.commitIndex_arg1 (s : State) (g : Geometry) :
    (s.commitIndex g).arg1 = s.arg1 := rfl
@[simp] theorem State.commitIndex_res0 (s : State) (g : Geometry) :
    (s.commitIndex g).res0 = toWord g.cap := rfl
@[simp] theorem State.commitIndex_res1 (s : State) (g : Geometry) :
    (s.commitIndex g).res1 = s.res1 := rfl
@[simp] theorem State.commitIndex_idxN (s : State) (g : Geometry) :
    (s.commitIndex g).idxN = toWord g.n := rfl
@[simp] theorem State.commitIndex_idxGeom (s : State) (g : Geometry) :
    (s.commitIndex g).idxGeom = g.word := rfl
@[simp] theorem State.commitIndex_status (s : State) (g : Geometry) :
    (s.commitIndex g).status = s.status.markBuilt := rfl
@[simp] theorem State.commitIndex_src (s : State) (g : Geometry) :
    (s.commitIndex g).src = s.src := rfl
@[simp] theorem State.commitIndex_idx (s : State) (g : Geometry) :
    (s.commitIndex g).idx = buildImage g s.src s.idx := rfl
@[simp] theorem State.commitIndex_params (s : State) (g : Geometry) :
    (s.commitIndex g).params = s.params := rfl
@[simp] theorem State.commitIndex_agenda (s : State) (g : Geometry) :
    (s.commitIndex g).agenda = s.agenda := rfl
@[simp] theorem State.commitIndex_readData (s : State) (g : Geometry) :
    (s.commitIndex g).readData = s.readData := rfl
@[simp] theorem State.commitIndex_draws (s : State) (g : Geometry) :
    (s.commitIndex g).draws = s.draws := rfl

/-! ### State.resetBlock -/

@[simp] theorem State.resetBlock_cmd (s : State) : s.resetBlock.cmd = 0 := rfl
@[simp] theorem State.resetBlock_arg0 (s : State) : s.resetBlock.arg0 = 0 := rfl
@[simp] theorem State.resetBlock_arg1 (s : State) : s.resetBlock.arg1 = 0 := rfl
@[simp] theorem State.resetBlock_res0 (s : State) : s.resetBlock.res0 = 0 := rfl
@[simp] theorem State.resetBlock_res1 (s : State) : s.resetBlock.res1 = 0 := rfl
@[simp] theorem State.resetBlock_idxN (s : State) : s.resetBlock.idxN = 0 := rfl
@[simp] theorem State.resetBlock_idxGeom (s : State) : s.resetBlock.idxGeom = 0 := rfl
@[simp] theorem State.resetBlock_status (s : State) : s.resetBlock.status = Status.reset := rfl
@[simp] theorem State.resetBlock_src (s : State) : s.resetBlock.src = Container.empty := rfl
@[simp] theorem State.resetBlock_idx (s : State) : s.resetBlock.idx = Container.empty := rfl
@[simp] theorem State.resetBlock_params (s : State) : s.resetBlock.params = s.params := rfl
@[simp] theorem State.resetBlock_agenda (s : State) : s.resetBlock.agenda = s.agenda := rfl
@[simp] theorem State.resetBlock_readData (s : State) : s.resetBlock.readData = s.readData := rfl
@[simp] theorem State.resetBlock_draws (s : State) : s.resetBlock.draws = s.draws := rfl

/-! ### State.answerRead -/

@[simp] theorem State.answerRead_cmd (s : State) (v : Word) : (s.answerRead v).cmd = s.cmd := rfl
@[simp] theorem State.answerRead_arg0 (s : State) (v : Word) : (s.answerRead v).arg0 = s.arg0 := rfl
@[simp] theorem State.answerRead_arg1 (s : State) (v : Word) : (s.answerRead v).arg1 = s.arg1 := rfl
@[simp] theorem State.answerRead_res0 (s : State) (v : Word) : (s.answerRead v).res0 = s.res0 := rfl
@[simp] theorem State.answerRead_res1 (s : State) (v : Word) : (s.answerRead v).res1 = s.res1 := rfl
@[simp] theorem State.answerRead_idxN (s : State) (v : Word) : (s.answerRead v).idxN = s.idxN := rfl
@[simp] theorem State.answerRead_idxGeom (s : State) (v : Word) :
    (s.answerRead v).idxGeom = s.idxGeom := rfl
@[simp] theorem State.answerRead_status (s : State) (v : Word) :
    (s.answerRead v).status = s.status := rfl
@[simp] theorem State.answerRead_src (s : State) (v : Word) : (s.answerRead v).src = s.src := rfl
@[simp] theorem State.answerRead_idx (s : State) (v : Word) : (s.answerRead v).idx = s.idx := rfl
@[simp] theorem State.answerRead_params (s : State) (v : Word) :
    (s.answerRead v).params = s.params := rfl
@[simp] theorem State.answerRead_agenda (s : State) (v : Word) :
    (s.answerRead v).agenda = s.agenda := rfl
@[simp] theorem State.answerRead_readData (s : State) (v : Word) :
    (s.answerRead v).readData = v := rfl
@[simp] theorem State.answerRead_draws (s : State) (v : Word) :
    (s.answerRead v).draws = s.draws := rfl

/-! ### State.answerFree -/

@[simp] theorem State.answerFree_cmd (s : State) : s.answerFree.cmd = s.cmd := rfl
@[simp] theorem State.answerFree_arg0 (s : State) : s.answerFree.arg0 = s.arg0 := rfl
@[simp] theorem State.answerFree_arg1 (s : State) : s.answerFree.arg1 = s.arg1 := rfl
@[simp] theorem State.answerFree_res0 (s : State) : s.answerFree.res0 = s.res0 := rfl
@[simp] theorem State.answerFree_res1 (s : State) : s.answerFree.res1 = s.res1 := rfl
@[simp] theorem State.answerFree_idxN (s : State) : s.answerFree.idxN = s.idxN := rfl
@[simp] theorem State.answerFree_idxGeom (s : State) : s.answerFree.idxGeom = s.idxGeom := rfl
@[simp] theorem State.answerFree_status (s : State) : s.answerFree.status = s.status := rfl
@[simp] theorem State.answerFree_src (s : State) : s.answerFree.src = s.src := rfl
@[simp] theorem State.answerFree_idx (s : State) : s.answerFree.idx = s.idx := rfl
@[simp] theorem State.answerFree_params (s : State) : s.answerFree.params = s.params := rfl
@[simp] theorem State.answerFree_agenda (s : State) : s.answerFree.agenda = s.agenda := rfl
@[simp] theorem State.answerFree_readData (s : State) :
    s.answerFree.readData = Config.freeWord s.draws := rfl
@[simp] theorem State.answerFree_draws (s : State) : s.answerFree.draws = s.draws + 1 := rfl

/-! ### State.dropWrite -/

@[simp] theorem State.dropWrite_cmd (s : State) : s.dropWrite.cmd = s.cmd := rfl
@[simp] theorem State.dropWrite_arg0 (s : State) : s.dropWrite.arg0 = s.arg0 := rfl
@[simp] theorem State.dropWrite_arg1 (s : State) : s.dropWrite.arg1 = s.arg1 := rfl
@[simp] theorem State.dropWrite_res0 (s : State) : s.dropWrite.res0 = s.res0 := rfl
@[simp] theorem State.dropWrite_res1 (s : State) : s.dropWrite.res1 = s.res1 := rfl
@[simp] theorem State.dropWrite_idxN (s : State) : s.dropWrite.idxN = s.idxN := rfl
@[simp] theorem State.dropWrite_idxGeom (s : State) : s.dropWrite.idxGeom = s.idxGeom := rfl
@[simp] theorem State.dropWrite_status (s : State) : s.dropWrite.status = s.status.overrun := rfl
@[simp] theorem State.dropWrite_src (s : State) : s.dropWrite.src = s.src := rfl
@[simp] theorem State.dropWrite_idx (s : State) : s.dropWrite.idx = s.idx := rfl
@[simp] theorem State.dropWrite_params (s : State) : s.dropWrite.params = s.params := rfl
@[simp] theorem State.dropWrite_agenda (s : State) : s.dropWrite.agenda = s.agenda := rfl
@[simp] theorem State.dropWrite_readData (s : State) : s.dropWrite.readData = s.readData := rfl
@[simp] theorem State.dropWrite_draws (s : State) : s.dropWrite.draws = s.draws := rfl

/-! ### State.turnTaken -/

@[simp] theorem State.turnTaken_cmd (s : State) : s.turnTaken.cmd = s.cmd := rfl
@[simp] theorem State.turnTaken_arg0 (s : State) : s.turnTaken.arg0 = s.arg0 := rfl
@[simp] theorem State.turnTaken_arg1 (s : State) : s.turnTaken.arg1 = s.arg1 := rfl
@[simp] theorem State.turnTaken_res0 (s : State) : s.turnTaken.res0 = s.res0 := rfl
@[simp] theorem State.turnTaken_res1 (s : State) : s.turnTaken.res1 = s.res1 := rfl
@[simp] theorem State.turnTaken_idxN (s : State) : s.turnTaken.idxN = s.idxN := rfl
@[simp] theorem State.turnTaken_idxGeom (s : State) : s.turnTaken.idxGeom = s.idxGeom := rfl
@[simp] theorem State.turnTaken_status (s : State) : s.turnTaken.status = s.status := rfl
@[simp] theorem State.turnTaken_src (s : State) : s.turnTaken.src = s.src := rfl
@[simp] theorem State.turnTaken_idx (s : State) : s.turnTaken.idx = s.idx := rfl
@[simp] theorem State.turnTaken_params (s : State) : s.turnTaken.params = s.params := rfl
@[simp] theorem State.turnTaken_agenda (s : State) : s.turnTaken.agenda = s.agenda.tail := rfl
@[simp] theorem State.turnTaken_readData (s : State) : s.turnTaken.readData = s.readData := rfl
@[simp] theorem State.turnTaken_draws (s : State) : s.turnTaken.draws = s.draws := rfl

/-! ### STATUS -/

@[simp] theorem Status.accept_busy (st : Status) : st.accept.busy = true := rfl
@[simp] theorem Status.accept_errv (st : Status) : st.accept.errv = st.errv := rfl
@[simp] theorem Status.accept_ovr (st : Status) : st.accept.ovr = st.ovr := rfl
@[simp] theorem Status.accept_built (st : Status) : st.accept.built = st.built := rfl
@[simp] theorem Status.accept_errcode (st : Status) : st.accept.errcode = st.errcode := rfl
@[simp] theorem Status.complete_busy (st : Status) : st.complete.busy = false := rfl
@[simp] theorem Status.complete_errv (st : Status) : st.complete.errv = st.errv := rfl
@[simp] theorem Status.complete_ovr (st : Status) : st.complete.ovr = st.ovr := rfl
@[simp] theorem Status.complete_built (st : Status) : st.complete.built = st.built := rfl
@[simp] theorem Status.complete_errcode (st : Status) : st.complete.errcode = st.errcode := rfl
@[simp] theorem Status.overrun_busy (st : Status) : st.overrun.busy = st.busy := rfl
@[simp] theorem Status.overrun_errv (st : Status) : st.overrun.errv = st.errv := rfl
@[simp] theorem Status.overrun_ovr (st : Status) : st.overrun.ovr = true := rfl
@[simp] theorem Status.overrun_built (st : Status) : st.overrun.built = st.built := rfl
@[simp] theorem Status.overrun_errcode (st : Status) : st.overrun.errcode = st.errcode := rfl
@[simp] theorem Status.markBuilt_busy (st : Status) : st.markBuilt.busy = st.busy := rfl
@[simp] theorem Status.markBuilt_errv (st : Status) : st.markBuilt.errv = st.errv := rfl
@[simp] theorem Status.markBuilt_ovr (st : Status) : st.markBuilt.ovr = st.ovr := rfl
@[simp] theorem Status.markBuilt_built (st : Status) : st.markBuilt.built = true := rfl
@[simp] theorem Status.markBuilt_errcode (st : Status) : st.markBuilt.errcode = st.errcode := rfl
@[simp] theorem Status.latch_busy (e : ErrorKind) (st : Status) : (st.latch e).busy = false := rfl
@[simp] theorem Status.latch_errv (e : ErrorKind) (st : Status) : (st.latch e).errv = true := rfl
@[simp] theorem Status.latch_ovr (e : ErrorKind) (st : Status) : (st.latch e).ovr = st.ovr := rfl
@[simp] theorem Status.latch_built (e : ErrorKind) (st : Status) : (st.latch e).built = st.built := rfl
@[simp] theorem Status.latch_errcode (e : ErrorKind) (st : Status) : (st.latch e).errcode = e.code := rfl

/-! ### Reset -/

/-- No byte is listed after reset, so both memories have the canonical form. -/
theorem State.reset_wf :
    State.reset.src.bytes.wf = true ∧ State.reset.idx.bytes.wf = true := ⟨rfl, rfl⟩

/-- The block part of `State.reset` is what the reset operation gives (rule R240). -/
theorem State.resetBlock_reset : State.reset.resetBlock = State.reset := rfl

end Sys2Proof.Machine
end

