-- ==== Sys2Proof/Laws/Step.lean ====
section
/-! SUPPORT. What one step can do, once: the window's offsets, a read's frame, the engine's turn, and
an inversion lemma that lists every next state a step can answer. -/

namespace Sys2Proof.Machine

/-! ### The agenda -/

@[simp] theorem State.turnTaken_of_nil {s : State} (h : s.agenda = []) : s.turnTaken = s := by
  cases s; simp_all [State.turnTaken]

theorem State.turnTaken_of_cons {s : State} {e : Event} {rest : List Event}
    (h : s.agenda = e :: rest) : s.turnTaken = { s with agenda := rest } := by
  simp [State.turnTaken, h]

/-- On the engine's turn the step is the engine's, with the turn taken off the agenda (rule R251). -/
theorem step_enginesTurn {s : State} (h : s.enginesTurn) : step s = runCommand s.turnTaken := by
  obtain ⟨hb, ha | ⟨r, ha⟩⟩ := h
  · simp [step, ha, engineTurn, hb]
  · simp [step, ha, engineTurn, hb, State.turnTaken]

/-! ### Host accesses -/

theorem windowOffset_eq_some {base off : Nat} {a : HostAccess} (h : windowOffset base a = some off) :
    a.size = 8 ∧ a.addr = base + off ∧ off ≤ 0xFF ∧ off % 8 = 0 := by
  unfold windowOffset at h
  split at h
  · rename_i hc
    obtain ⟨h1, h2, h3, h4⟩ := hc
    simp only [Option.some.injEq] at h
    omega
  · cases h

theorem windowOffset_self {base off : Nat} (op : HostOp) (h : off ≤ 0xFF) (h8 : off % 8 = 0) :
    windowOffset base ⟨base + off, 8, op⟩ = some off := by
  simp [windowOffset, h, h8]

theorem WindowReg.at_eq_ctrl {off : Nat} (h : WindowReg.at off = .ctrl) : off = 0 := by
  unfold WindowReg.at at h
  split at h <;> first | rfl | cases h

theorem WindowReg.at_reserved {off : Nat} (h : 0x58 ≤ off) : WindowReg.at off = .reserved := by
  unfold WindowReg.at
  split <;> first | omega | rfl

/-- A read changes the value the host holds and the count of draws, nothing of the block (rule
R53). -/
theorem hostRead_frame (r : WindowReg) (s : State) :
    hostRead r s
      = { s with readData := (hostRead r s).readData, draws := (hostRead r s).draws } := by
  cases r <;> simp only [hostRead, State.answerRead, State.answerResult] <;> split <;> rfl

/-- Every next state a host write can answer. -/
theorem hostWrite_cases (r : WindowReg) (v : Word) (s : State) :
    hostWrite r v s = s ∨
    (r = .ctrl ∧ v.getLsbD 0 = true ∧ hostWrite r v s = s.resetBlock) ∨
    hostWrite r v s = s.dropWrite ∨
    (s.status.busy = false ∧ s.status.errv = false ∧
      hostWrite r v s = { s with cmd := v, status := s.status.accept }) ∨
    (s.status.busy = false ∧
      (hostWrite r v s = { s with arg0 := v } ∨ hostWrite r v s = { s with arg1 := v })) := by
  cases r
  case ctrl =>
    simp only [hostWrite, writeCtrl]
    split
    · exact .inr (.inl ⟨trivial, by assumption, rfl⟩)
    · exact .inl rfl
  case cmd =>
    simp only [hostWrite, writeCmd]
    split
    · exact .inr (.inr (.inl rfl))
    · rename_i h
      simp only [Bool.or_eq_true, not_or, Bool.not_eq_true] at h
      exact .inr (.inr (.inr (.inl ⟨h.1, h.2, rfl⟩)))
  case arg0 =>
    simp only [hostWrite, writeArg0]
    split
    · exact .inr (.inr (.inl rfl))
    · rename_i h
      exact .inr (.inr (.inr (.inr ⟨by simpa using h, .inl rfl⟩)))
  case arg1 =>
    simp only [hostWrite, writeArg1]
    split
    · exact .inr (.inr (.inl rfl))
    · rename_i h
      exact .inr (.inr (.inr (.inr ⟨by simpa using h, .inr rfl⟩)))
  all_goals exact .inl rfl

/-! ### One step -/

/-- Every next state a step can answer: the engine's step with a command pending; a turn of the idle
engine; a reset; an answered read or an ignored write; a dropped write; an accepted CMD write; an
operand write. -/
theorem step_cases {s t : State} (h : step s = .next t) :
    (s.enginesTurn ∧ runCommand s.turnTaken = .next t) ∨
    (s.resets ∧ t = s.turnTaken.resetBlock) ∨
    (∃ v n, t = { s.turnTaken with readData := v, draws := n }) ∨
    t = s.turnTaken.dropWrite ∨
    (s.status.busy = false ∧ s.status.errv = false ∧
      ∃ v, t = { s.turnTaken with cmd := v, status := s.status.accept }) ∨
    (s.status.busy = false ∧
      ∃ v, t = { s.turnTaken with arg0 := v } ∨ t = { s.turnTaken with arg1 := v }) := by
  unfold step at h
  split at h
  · rename_i ha
    rw [State.turnTaken_of_nil ha]
    unfold engineTurn at h
    split at h
    · rename_i hb
      exact .inl ⟨⟨hb, .inl ha⟩, h⟩
    · cases h
      exact .inr (.inr (.inl ⟨_, _, rfl⟩))
  · rename_i a rest ha
    rw [State.turnTaken_of_cons ha]
    unfold hostAccess at h
    split at h
    · cases h
    · rename_i off hoff
      split at h
      · cases h
        exact .inr (.inr (.inl ⟨_, _, hostRead_frame _ _⟩))
      · rename_i v hop
        cases h
        obtain ⟨h1, h2, h3, h4⟩ := windowOffset_eq_some hoff
        rcases hostWrite_cases (WindowReg.at off) v { s with agenda := rest } with
          e | ⟨hr, hv, e⟩ | e | ⟨hb, he, e⟩ | ⟨hb, e | e⟩
        · exact .inr (.inr (.inl ⟨_, _, e⟩))
        · have h0 := WindowReg.at_eq_ctrl hr
          subst h0
          refine .inr (.inl ⟨.inr ⟨v, rest, ?_, hv⟩, e⟩)
          rw [ha]
          obtain ⟨addr, size, op⟩ := a
          simp only [Nat.add_zero] at h1 h2 hop
          rw [h1, h2, hop]
        · exact .inr (.inr (.inr (.inl e)))
        · exact .inr (.inr (.inr (.inr (.inl ⟨hb, he, v, e⟩))))
        · exact .inr (.inr (.inr (.inr (.inr ⟨hb, v, .inl e⟩))))
        · exact .inr (.inr (.inr (.inr (.inr ⟨hb, v, .inr e⟩))))
  · rename_i rest ha
    rw [State.turnTaken_of_cons ha]
    unfold engineTurn at h
    split at h
    · rename_i hb
      exact .inl ⟨⟨hb, .inr ⟨rest, ha⟩⟩, h⟩
    · cases h
      exact .inr (.inr (.inl ⟨_, _, rfl⟩))
  · rename_i rest ha
    rw [State.turnTaken_of_cons ha]
    cases h
    exact .inr (.inl ⟨.inl ⟨rest, ha⟩, rfl⟩)

/-- While a command is pending, a step that is neither the engine's nor a reset changes OVR at most,
and what the host holds (rules R252, R253). -/
theorem step_pending_frame {s t : State} (h : step s = .next t) (hb : s.status.busy = true)
    (he : ¬ s.enginesTurn) (hr : ¬ s.resets) :
    t = { s with
      agenda := s.agenda.tail, readData := t.readData, draws := t.draws
      status := { s.status with ovr := t.status.ovr } } := by
  rcases step_cases h with ⟨h, -⟩ | ⟨h, -⟩ | ⟨_, _, rfl⟩ | rfl | ⟨h, -⟩ | ⟨h, -⟩
  · exact absurd h he
  · exact absurd h hr
  · rfl
  · rfl
  all_goals rw [hb] at h; cases h

/-- What the engine's step can answer: the error latch of an illegal word, or the command. -/
theorem runCommand_cases (s : State) :
    (decode s.cmd = none ∧ runCommand s = .next (s.raise .illegalCommand)) ∨
      ∃ i, decode s.cmd = some i ∧ runCommand s = exec i s := by
  unfold runCommand State.commandWord
  cases h : decode s.cmd with
  | none => exact .inl ⟨rfl, rfl⟩
  | some i => exact .inr ⟨i, rfl, rfl⟩

/-! ### Runs -/

/-- A run of k + 1 steps whose first step answers t is the run of k steps from t. -/
theorem run_succ_of_step {s t : State} (k : Nat) (h : step s = .next t) :
    Host.Core.run core (k + 1) s = Host.Core.run core k t := by
  have hc : core.step = step := rfl
  simp only [Host.Core.run, hc, h]

end Sys2Proof.Machine
end

