-- ==== Sys2Proof/Tests/Slice0.lean ====
section
/-! SUPPORT. Small tests. Every expected value is taken from the spec: the encodings of
30_encoding.md, the vectors of 95_test_vectors.md (named by their ids), the examples of the rules. -/

namespace Sys2Proof.Tests

open Sys2Proof.Machine

/-! ### Well-formedness refuses a field of more than eight bits -/

theorem test_wf_get8 : (Instr.get8 256 .src).wellFormed = false := by decide
theorem test_wf_get16 : (Instr.get16 256 .idx).wellFormed = false := by decide
theorem test_wf_get32 : (Instr.get32 300 .src).wellFormed = false := by decide
theorem test_wf_get64 : (Instr.get64 256 .idx).wellFormed = false := by decide
theorem test_wf_set8 : (Instr.set8 256).wellFormed = false := by decide
theorem test_wf_set16 : (Instr.set16 256).wellFormed = false := by decide
theorem test_wf_set32 : (Instr.set32 256).wellFormed = false := by decide
theorem test_wf_set64 : (Instr.set64 256).wellFormed = false := by decide
theorem test_wf_append8 : (Instr.append8 256).wellFormed = false := by decide
theorem test_wf_append16 : (Instr.append16 256).wellFormed = false := by decide
theorem test_wf_append32 : (Instr.append32 256).wellFormed = false := by decide
theorem test_wf_append64 : (Instr.append64 256).wellFormed = false := by decide
theorem test_wf_build_rbs : (Instr.build 256 0).wellFormed = false := by decide
theorem test_wf_build_rss : (Instr.build 0 256).wellFormed = false := by decide
theorem test_wf_popcount : (Instr.popcount 256).wellFormed = false := by decide
theorem test_wf_encode : (Instr.encode 256).wellFormed = false := by decide
theorem test_wf_decode : (Instr.decode 256).wellFormed = false := by decide

/-! ### Decoding: one word of each constructor, written out from rules R72 to R75 and R78

Format C: SEL, WC, BS, OP. Format B: RSS, RBS, OP. Format Q: BV, OP. Format P: WB, OP. -/

theorem test_decode_new : decode 0b0_00_00000000_00000001 = some .new := by decide
theorem test_decode_get8 : decode 0b0_00_00000100_00000010 = some (.get8 4 .src) := by decide
theorem test_decode_get16 : decode 0b1_01_00010000_00000010 = some (.get16 16 .idx) := by decide
theorem test_decode_get32 : decode 0b1_10_00011010_00000010 = some (.get32 26 .idx) := by decide
theorem test_decode_get64 : decode 0b0_11_01000001_00000010 = some (.get64 65 .src) := by decide
theorem test_decode_set8 : decode 0b0_00_00000011_00000011 = some (.set8 3) := by decide
theorem test_decode_set16 : decode 0b0_01_00001100_00000011 = some (.set16 12) := by decide
theorem test_decode_set32 : decode 0b0_10_00100000_00000011 = some (.set32 32) := by decide
theorem test_decode_set64 : decode 0b0_11_01000000_00000011 = some (.set64 64) := by decide
theorem test_decode_append8 : decode 0b0_00_00000011_00000100 = some (.append8 3) := by decide
theorem test_decode_append16 : decode 0b0_01_00001010_00000100 = some (.append16 10) := by decide
theorem test_decode_append32 : decode 0b0_10_00100000_00000100 = some (.append32 32) := by decide
theorem test_decode_append64 : decode 0b0_11_01000000_00000100 = some (.append64 64) := by decide
theorem test_decode_length : decode 0b1_00_00000000_00000101 = some (.length .idx) := by decide
theorem test_decode_build : decode 0b00000010_00000100_00010000 = some (.build 4 2) := by decide
theorem test_decode_rank0 : decode 0b0_00010001 = some .rank0 := by decide
theorem test_decode_rank1 : decode 0b1_00010001 = some .rank1 := by decide
theorem test_decode_choose : decode 0b00000000_00100000 = some .choose := by decide
theorem test_decode_floorlog2 : decode 0b00000000_00100001 = some .floorlog2 := by decide
theorem test_decode_popcount : decode 0b00000011_00100010 = some (.popcount 3) := by decide
theorem test_decode_encode : decode 0b00000100_00100011 = some (.encode 4) := by decide
theorem test_decode_decode : decode 0b00001000_00100100 = some (.decode 8) := by decide

/-- V-DEC-1 to V-DEC-12. -/
theorem test_decode_illegal :
    [0x00, 0x06, 0x100000002, 0x40103, 0x101, 0x105, 0x120, 0x211, 0x1000010, 0x10022, 0x80102,
      0x40104].all (fun w => decode (toWord w) == none) = true := by decide

/-! ### Helpers: a container from a number, a pending command, one step -/

/-- A container of len bits that hold the number v. -/
def containerOf (len v : Nat) : Container := (Container.empty.setLen len).memWrite 0 len v

/-- The command word w accepted with the given operands. -/
def pending (w a0 a1 : Nat) (s : State) : State :=
  { s with cmd := toWord w, arg0 := toWord a0, arg1 := toWord a1, status := s.status.accept }

/-- A block whose SRC holds the number v in len bits. -/
def withSrc (len v : Nat) : State := { State.reset with src := containerOf len v }

/-- A block whose IDX is a built index: its length, image, n and IDX_GEOM. -/
def withIndex (len image n geom : Nat) : State :=
  { State.reset with
    idx := containerOf len image, idxN := toWord n, idxGeom := toWord geom
    status := { Status.reset with built := true } }

/-- One step, read through f. -/
def after (s : State) (f : State → Nat) : Option Nat :=
  match step s with
  | .next t => some (f t)
  | _ => none

def status (s : State) : Nat := s.status.word.toNat
def res0 (s : State) : Nat := s.res0.toNat

/-! ### Primitives -/

/-- V-PRM-2. -/
theorem test_choose_64_32 :
    after (pending 0x20 64 32 .reset) res0 = some 1832624140942590534 := by decide
/-- V-PRM-8. -/
theorem test_choose_65 : after (pending 0x20 65 0 .reset) status = some 0x702 := by decide
/-- V-PRM-11. -/
theorem test_floorlog2_1000 : after (pending 0x21 1000 0 .reset) res0 = some 9 := by decide
/-- V-PRM-13. -/
theorem test_floorlog2_max :
    after (pending 0x21 0xFFFFFFFFFFFFFFFF 0 .reset) res0 = some 63 := by decide
/-- V-PRM-17. -/
theorem test_popcount_width8 : after (pending 0x822 0x1FF 0 .reset) res0 = some 8 := by decide
/-- V-PRM-18. -/
theorem test_popcount_width65 : after (pending 0x4122 0 0 .reset) status = some 0x702 := by decide

/-! ### Container -/

/-- V-CON-1. -/
theorem test_new : after (pending 0x01 13 0 (withSrc 16 0xFFFF))
    (fun t => t.src.len.toNat * 2 ^ 16 + t.src.memRead 0 16) = some (13 * 2 ^ 16 + 0xE000) := by
  decide
/-- V-CON-20, the capacity of SRC set to 16. -/
theorem test_new_capacity :
    after (pending 0x01 17 0 { State.reset with params := ⟨16, 16, 0⟩ }) status = some 0x502 := by
  decide
/-- P1, `get16 16, 0` at S1's end. -/
theorem test_get16 : after (pending 0x11002 0 0 (withSrc 16 0xE78C)) res0 = some 0xE78C := by decide
/-- Scenario S1, `get8 4, 7` across a byte boundary (on S1's end contents). -/
theorem test_get8_crosses : after (pending 0x402 7 0 (withSrc 16 0xE78C)) res0 = some 15 := by decide
/-- V-CON-7: a field that spans two 64-bit words. -/
theorem test_get64_spans : after (pending 0x34002 60 0 (withSrc 128 (0xFEDCBA9876543210 * 2 ^ 60)))
    res0 = some 0xFEDCBA9876543210 := by decide +kernel
/-- V-CON-15: the sum does not wrap. -/
theorem test_get_no_wrap :
    after (pending 0x102 0xFFFFFFFFFFFFFFFF 0 (withSrc 13 0)) status = some 0x102 := by decide
/-- V-CON-16: bitsize before range. -/
theorem test_get_priority : after (pending 0x02 100 0 (withSrc 13 0)) status = some 0x202 := by decide
/-- V-CON-14: the last bit is legal. -/
theorem test_get_last : after (pending 0x102 12 0 (withSrc 13 0x1000)) res0 = some 1 := by decide
/-- V-CON-2. -/
theorem test_set8_masked :
    after (pending 0x303 6 0xFF (withSrc 16 0)) (fun t => t.src.memRead 0 16) = some 0x01C0 := by
  decide
/-- V-CON-3. -/
theorem test_set16 :
    after (pending 0x10C03 6 0xABC (withSrc 24 0)) (fun t => t.src.memRead 0 24) = some 0x2AF00 := by
  decide
/-- V-CON-5. -/
theorem test_set32_truncates : after (pending 0x22003 4 0x100000005 (withSrc 40 0))
    (fun t => t.src.memRead 0 40) = some 0x50 := by decide
/-- V-CON-6. -/
theorem test_set64 : after (pending 0x34003 16 0x0123456789ABCDEF (withSrc 96 0))
    (fun t => t.src.memRead 0 64) = some 0x456789ABCDEF0000 := by decide +kernel
/-- V-CON-17: out of range, no bit written. -/
theorem test_set_range : after (pending 0x403 10 0xF (withSrc 13 0))
    (fun t => status t * 2 ^ 16 + t.src.memRead 0 16) = some (0x102 * 2 ^ 16) := by decide
/-- V-CON-25: overlapping windows, the later SET wins (its second SET). -/
theorem test_set_overlap :
    after (pending 0x803 8 0 (withSrc 16 0x0FF0)) (fun t => t.src.memRead 0 16) = some 0x00F0 := by
  decide
/-- V-CON-19: only the low 3 bits are appended. -/
theorem test_append8 : after (pending 0x304 0 0xFF (withSrc 13 0))
    (fun t => res0 t * 2 ^ 16 + t.src.memRead 0 16) = some (16 * 2 ^ 16 + 0xE000) := by decide
/-- V-CON-18, the capacity of SRC set to 16. -/
theorem test_append_capacity :
    after (pending 0x404 0 0xF { withSrc 13 0 with params := ⟨16, 16, 0⟩ })
      (fun t => status t * 2 ^ 16 + t.src.len.toNat) = some (0x502 * 2 ^ 16 + 13) := by decide
/-- V-CON-8. -/
theorem test_append16 : after (pending 0x10A04 0 0x3FF .reset)
    (fun t => res0 t * 2 ^ 16 + t.src.memRead 0 10) = some (10 * 2 ^ 16 + 0x3FF) := by decide
/-- V-CON-9. -/
theorem test_append32 : after (pending 0x22004 0 0x80000001 (withSrc 5 0))
    (fun t => res0 t * 2 ^ 40 + t.src.memRead 0 37) = some (37 * 2 ^ 40 + 0x1000000020) := by decide
/-- V-CON-21. -/
theorem test_append64 : after (pending 0x34004 0 0xFFFFFFFFFFFFFFFF .reset)
    (fun t => t.src.memRead 0 64) = some 0xFFFFFFFFFFFFFFFF := by decide +kernel
/-- V-CON-22. -/
theorem test_length_src : after (pending 0x05 0 0 (withSrc 13 0)) res0 = some 13 := by decide

/-! ### Codec -/

/-- V-COD-1: the complete table for b = 4, as class * 16 + offset for V = 0 to 15. -/
theorem test_encode_table4 :
    (List.range 16).map (fun v => (encodeBlock 4 v).1 * 16 + (encodeBlock 4 v).2)
      = [0x00, 0x13, 0x12, 0x25, 0x11, 0x24, 0x22, 0x33, 0x10, 0x23, 0x21, 0x32, 0x20, 0x31, 0x30,
          0x40] := by decide
/-- V-COD-2: bits at and above b are ignored. -/
theorem test_encode_ignores_high : after (pending 0x423 0xF5 0 .reset)
    (fun t => res0 t * 16 + t.res1.toNat) = some (2 * 16 + 4) := by decide
/-- V-COD-2: b = 64. -/
theorem test_encode_64 : after (pending 0x4023 0x5555555555555555 0 .reset)
    (fun t => t.res1.toNat) = some 1228322805115103572 := by decide +kernel
/-- V-COD-3. -/
theorem test_decode_block : after (pending 0x824 4 49 .reset) res0 = some 0x55 := by decide
/-- V-COD-3: o ≥ C(4, 2). -/
theorem test_decode_block_offset : after (pending 0x424 2 6 .reset) status = some 0x702 := by decide

/-! ### Index -/

/-- V-BLD-S4b: the IDX image. -/
theorem test_build_image : after (pending 0x20410 0 0 (withSrc 10 0x155))
    (fun t => t.idx.memRead 0 26) = some 0x1948A20 := by decide
/-- V-BLD-16: auto sizes; CAP and IDX_GEOM. -/
theorem test_build_auto : after (pending 0x10 0 0 (withSrc 16 0xE78C))
    (fun t => res0 t * 2 ^ 40 + t.idxGeom.toNat) = some (42 * 2 ^ 40 + 0x502020402) := by decide
/-- V-BLD-E1. -/
theorem test_build_block_size : after (pending 0x4110 0 0 .reset) status = some 0x302 := by decide
/-- V-RNK-5: a partial block (the walk trace of rank1(5) on V-BLD-S4b). -/
theorem test_rank1_partial :
    after (pending 0x111 5 0 (withIndex 26 0x1948A20 10 0x403030204)) res0 = some 3 := by decide
/-- V-RNK-7: the clamp case, rank1(9) on V-BLD-9. -/
theorem test_rank1_clamp :
    after (pending 0x111 9 0 (withIndex 30 0x15304850 9 0x401010301)) res0 = some 6 := by decide
/-- V-RNK-10. -/
theorem test_rank0 :
    after (pending 0x11 16 0 (withIndex 42 0x8548620400 16 0x502020402)) res0 = some 7 := by decide
/-- V-RNK-4. -/
theorem test_rank_not_built : after (pending 0x111 0 0 .reset) status = some 0x602 := by decide

/-! ### Protocol -/

/-- The state with one event to come. -/
def facing (e : Event) (s : State) : State := { s with agenda := [e] }

/-- The host writes v at an offset of the window. -/
def wr (offset v : Nat) : Event := .host ⟨offset, 8, .write (toWord v)⟩

/-- The host reads at an offset of the window. -/
def rd (offset : Nat) : Event := .host ⟨offset, 8, .read⟩

/-- V-PRT-2: a CMD write in the BUSY window is dropped and sets OVR. -/
theorem test_cmd_dropped : after (facing (wr 0x10 0x21) (pending 0x20 5 2 .reset))
    (fun t => t.cmd.toNat * 2 ^ 16 + status t) = some (0x20 * 2 ^ 16 + 0x5) := by decide
/-- V-PRT-5: ARG0 is taken while ERRV = 1. -/
theorem test_arg_after_error : after (facing (wr 0x18 3)
    { State.reset with status := ⟨false, true, false, false, 2⟩ })
    (fun t => t.arg0.toNat * 2 ^ 16 + status t) = some (3 * 2 ^ 16 + 0x202) := by decide
/-- V-PRT-6: a CMD write while ERRV = 1 is dropped. -/
theorem test_cmd_after_error : after (facing (wr 0x10 0x102)
    { State.reset with status := ⟨false, true, false, false, 2⟩, cmd := 0x902 })
    (fun t => t.cmd.toNat * 2 ^ 16 + status t) = some (0x902 * 2 ^ 16 + 0x206) := by decide
/-- V-PRT-4: a soft reset discards a pending command. -/
theorem test_soft_reset : after (facing (wr 0x00 1) (pending 0x10 0 0 (withSrc 10 0x3FF)))
    (fun t => status t + t.src.len.toNat + t.cmd.toNat + t.idx.len.toNat) = some 0 := by decide
/-- V-PRT-8: a write to a read-only register is ignored. -/
theorem test_read_only : after (facing (wr 0x28 7) .reset) (fun t => res0 t + status t) = some 0 := by
  decide
/-- V-PRT-1: SRC_CAP reads SRC_CAP_BITS. -/
theorem test_read_srccap : after (facing (rd 0x48) .reset) (fun t => t.readData.toNat)
    = some 0x100000 := by decide
/-- P3, `rd STATUS` after an INVALID_BITSIZE and a dropped write. -/
theorem test_read_status : after (facing (rd 0x08)
    { State.reset with status := ⟨false, true, true, false, 2⟩ }) (fun t => t.readData.toNat)
    = some 0x206 := by decide
/-- Rule R51: a misaligned access is refused. -/
theorem test_misaligned : after (facing (rd 0x0C) .reset) status = none := by decide
/-- The example of rule R84: `set8 4, 7, 15` expands to `wr ARG0, 7; wr ARG1, 15; wr CMD, 0x403`. -/
theorem test_macro_set8 : (macroWrites 0 (setwPseudo 4) 7 15).map .host
    = [wr 0x18 7, wr 0x20 15, wr 0x10 0x403] := by decide
/-- Rule R84: the smallest width of at least bs. -/
theorem test_pseudo_widths : [getwPseudo 8, getwPseudo 9, setwPseudo 33, appendwPseudo 17]
    = [.get8 8 .src, .get16 9 .src, .set64 33, .append32 17] := by decide

end Sys2Proof.Tests
end

