-- ==== Sys2Proof/Tests/Witnesses.lean ====
section
/-! SUPPORT. For every statement that has hypotheses, concrete states and operands that meet all of
them together, clause by clause, at the ends of the ranges. -/

namespace Sys2Proof.Tests

open Sys2Proof.Machine

/-! ### Encoding -/

theorem test_witness_DecodeReadsBackEncode :
    (Instr.build 255 255).wellFormed = true ∧ (Instr.get64 0 .idx).wellFormed = true := by decide

theorem test_witness_EncodeReadsBackDecode : decode 0x7FF02 = some (.get64 255 .idx) := by decide

theorem test_witness_DecodedWordMatchesOneTableRow :
    decode 0x4FF02 = some (.get8 255 .idx) ∧
      (0x4FF02 : Word) &&& (tableRow (.get8 0 .src)).mask = (tableRow (.get8 0 .src)).pattern := by
  decide

/-! ### Steps -/

/-- An illegal word pending, the engine's turn by default. -/
theorem test_witness_IllegalWords_illegal :
    (pending 0x40103 0 0 .reset).enginesTurn ∧ illegalWord (pending 0x40103 0 0 .reset).cmd :=
  ⟨⟨rfl, .inl rfl⟩, by unfold illegalWord; decide⟩

/-- A legal word pending, the engine's turn from the agenda. -/
theorem test_witness_IllegalWords_legal :
    (facing .engine (pending 0x111 0 0 .reset)).enginesTurn ∧
      ¬ illegalWord (facing .engine (pending 0x111 0 0 .reset)).cmd :=
  ⟨⟨rfl, .inr ⟨[], rfl⟩⟩, by unfold illegalWord; decide⟩

theorem test_witness_StepRunsThePendingCommand :
    (pending 0x111 0 0 .reset).enginesTurn ∧ decode (pending 0x111 0 0 .reset).cmd = some .rank1 :=
  ⟨⟨rfl, .inl rfl⟩, by decide⟩

theorem test_witness_IdleEngineHasNoStep :
    (facing .engine .reset).status.busy = false ∧ (facing .engine .reset).agenda = [.engine] ∧
      State.reset.status.busy = false ∧ State.reset.agenda = [] := by decide

/-- ENCODE reads ARG0 only; SET reads both. -/
theorem test_witness_MacroRunsItsCommand :
    ∀ i ∈ [Instr.encode 64, .set64 64],
      let s : State :=
        { State.reset with agenda := (macroWrites 0 i 1 2).map .host ++ [.engine] }
      s.status.busy = false ∧ s.status.errv = false ∧ i.wellFormed = true ∧
        s.agenda = (macroWrites s.params.base i 1 2).map .host ++ .engine :: [] := by decide

/-- A STATUS read and a CTRL write of 2, which resets nothing, before the engine's turn: with a legal
word (FLOORLOG2) and with an illegal one pending. -/
theorem test_witness_PendingCommandCompletes :
    ∀ w ∈ [0x21, 0x40103],
      let s : State := { pending w 8 0 .reset with agenda := [rd 0x08, wr 0x00 2, .engine] }
      s.status.busy = true ∧ Event.hardwareReset ∉ s.agenda ∧
        (∀ a, Event.host a ∈ s.agenda → windowOffset s.params.base a ≠ none) ∧
        ∀ v, Event.host ⟨s.params.base, 8, .write v⟩ ∈ s.agenda → v.getLsbD 0 = false := by
  intro w _
  refine ⟨rfl, by simp [rd, wr], fun a ha => ?_, fun v hv => ?_⟩
  · simp only [rd, wr, List.mem_cons, Event.host.injEq, reduceCtorEq, List.not_mem_nil,
      or_false] at ha
    rcases ha with rfl | rfl
    · exact (by decide : windowOffset 0 ⟨0x08, 8, .read⟩ ≠ none)
    · exact (by decide : windowOffset 0 ⟨0x00, 8, .write (toWord 2)⟩ ≠ none)
  · simp only [rd, wr, List.mem_cons, Event.host.injEq, HostAccess.mk.injEq, HostOp.write.injEq,
      reduceCtorEq, and_false, false_or, List.not_mem_nil, or_false] at hv
    rw [hv.2.2]
    rfl

/-! ### The window -/

theorem test_witness_IdleReadsAnswerTheRegister :
    ∀ off ∈ [0x00, 0x10, 0x18, 0x20, 0x28, 0x30, 0x38, 0x40, 0x48, 0x50],
      (facing (rd off) .reset).status.busy = false ∧
        (facing (rd off) .reset).facesAccess off .read [] := by
  unfold State.facesAccess; decide

theorem test_witness_StatusReadsItsFields :
    (facing (rd 0x08) .reset).facesAccess 0x08 .read [] := by
  unfold State.facesAccess; decide

theorem test_witness_BusyReadsOfResultsAreFree :
    ∀ off ∈ [0x28, 0x30, 0x38, 0x40, 0x00, 0x08, 0x10, 0x18, 0x20, 0x48, 0x50, 0x58, 0xF8],
      (facing (rd off) (pending 0x21 8 0 .reset)).status.busy = true ∧
        (facing (rd off) (pending 0x21 8 0 .reset)).facesAccess off .read [] := by
  unfold State.facesAccess; decide

theorem test_witness_ReadsHaveNoSideEffect :
    (facing (rd 0x48) .reset).agenda = .host ⟨0x48, 8, .read⟩ :: [] ∧
      ∃ t, step (facing (rd 0x48) .reset) = .next t := ⟨rfl, _, rfl⟩

theorem test_witness_ReservedAndReadOnlyOffsets :
    (∀ off ∈ [0x58, 0xF8], 0x58 ≤ off ∧ off ≤ 0xF8 ∧ off % 8 = 0 ∧
      (facing (rd off) .reset).facesAccess off .read []) ∧
    ∀ off ∈ [0x58, 0xF8, 0x08, 0x28, 0x30, 0x38, 0x40, 0x48, 0x50],
      ((0x58 ≤ off ∧ off ≤ 0xF8 ∧ off % 8 = 0) ∨
        off ∈ [0x08, 0x28, 0x30, 0x38, 0x40, 0x48, 0x50]) ∧
      (facing (wr off 7) .reset).facesAccess off (.write 7) [] := by
  unfold State.facesAccess; decide

theorem test_witness_CommandWriteIsAccepted :
    (facing (wr 0x10 0x21) .reset).status.busy = false ∧
      (facing (wr 0x10 0x21) .reset).status.errv = false ∧
      (facing (wr 0x10 0x21) .reset).facesAccess 0x10 (.write 0x21) [] := by
  unfold State.facesAccess; decide

/-- A SET8 with SEL = 1, accepted: the illegal-word clause. -/
theorem test_witness_CommandWriteIsAccepted_illegal :
    (facing (wr 0x10 0x40103) .reset).facesAccess 0x10 (.write 0x40103) [] ∧
      step (facing (wr 0x10 0x40103) .reset) = .next (pending 0x40103 0 0 .reset) ∧
      illegalWord 0x40103 ∧ (pending 0x40103 0 0 .reset).enginesTurn := by
  refine ⟨rfl, rfl, ?_, rfl, .inl rfl⟩
  exact .inr (.inr (.inr (.inl (by decide))))

/-- A block in the error state, with code 2. -/
def failed : State := { State.reset with status := ⟨false, true, false, false, 2⟩ }

theorem test_witness_DroppedWritesSetOvr :
    (∀ off ∈ [0x10, 0x18, 0x20], (facing (wr off 7) (pending 0x21 8 0 .reset)).status.busy = true ∧
      (facing (wr off 7) (pending 0x21 8 0 .reset)).facesAccess off (.write 7) []) ∧
    (facing (wr 0x10 7) failed).status.errv = true ∧
      (facing (wr 0x10 7) failed).facesAccess 0x10 (.write 7) [] := by
  unfold State.facesAccess; decide

theorem test_witness_OperandWriteIsTaken :
    ∀ off ∈ [0x18, 0x20], (facing (wr off 7) failed).status.busy = false ∧
      (facing (wr off 7) failed).facesAccess off (.write 7) [] := by
  unfold State.facesAccess; decide

/-- Bit 0 decides: 1 resets, 2 does not. -/
theorem test_witness_ControlWriteResets :
    (facing (wr 0x00 1) .reset).facesAccess 0x00 (.write 1) [] ∧ (1 : Word).getLsbD 0 = true ∧
      (facing (wr 0x00 2) .reset).facesAccess 0x00 (.write 2) [] ∧
      (2 : Word).getLsbD 0 = false := by
  unfold State.facesAccess; decide

theorem test_witness_HardwareResetState :
    (facing .hardwareReset failed).agenda = .hardwareReset :: [] := by decide

/-- A narrow access, a misaligned one and one past the window are not admitted; the last offset of
the window is. -/
theorem test_witness_OutsideAccessIsRefused :
    (∀ a ∈ [(⟨0, 4, .read⟩ : HostAccess), ⟨4, 8, .read⟩, ⟨0x100, 8, .read⟩],
      ¬ (a.size = 8 ∧ ∃ k, k < 0x20 ∧ a.addr = State.reset.params.base + 8 * k)) ∧
    (8 = 8 ∧ ∃ k, k < 0x20 ∧ 0xF8 = State.reset.params.base + 8 * k) := by decide

theorem not_resets_of_empty {s : State} (h : s.agenda = []) : ¬ s.resets := by
  rintro (⟨r, hr⟩ | ⟨v, r, hr, -⟩) <;> rw [h] at hr <;> cases hr

theorem test_witness_ErrorStateIsSticky :
    (facing (wr 0x18 3) failed).status.errv = true ∧
      (facing (wr 0x18 3) failed).status.busy = false ∧ ¬ (facing (wr 0x18 3) failed).resets ∧
      ∃ t, step (facing (wr 0x18 3) failed) = .next t := by
  refine ⟨rfl, rfl, ?_, _, rfl⟩
  rintro (⟨r, hr⟩ | ⟨v, r, hr, -⟩)
  · cases hr
  · simp [facing, wr, failed, State.reset, Config.base] at hr

/-! ### The container -/

/-- A capacity of 16 bits: 17 is past it, 16 is not; and 0x101 is another word of the opcode. -/
theorem test_witness_NewFollowsItsRule :
    let s (n : Nat) : State :=
      { withSrc 8 0xFF with arg0 := toWord n, params := ⟨16, 16, 0⟩ }
    (s 17).params.srcCapBits.toNat < (s 17).arg0.toNat ∧
      (s 16).arg0.toNat ≤ (s 16).params.srcCapBits.toNat ∧ (s 16).src.bytes.wf = true ∧
      (0x101 : Word).extractLsb 7 0 = 0x01 ∧ (0x101 : Word) ≠ 0x01 := by decide

/-- A SRC of 64 bits, read or written at 64 − W. -/
def window (w len : Nat) : State := { withSrc len 0x8001 with arg0 := toWord (64 - w), arg1 := 1 }

theorem test_witness_GetFollowsItsRule :
    ∀ r ∈ getRows,
      (255 < 256 ∧ (0 = 0 ∨ r.1 < 0) ∧ (r.1 + 1 = 0 ∨ r.1 < r.1 + 1)) ∧
      (1 ≤ r.1 ∧ r.1 ≤ r.1 ∧
        ((window r.1 63).container .src).len.toNat < (window r.1 63).arg0.toNat + r.1) ∧
      1 ≤ r.1 ∧ r.1 ≤ r.1 ∧
        (window r.1 64).arg0.toNat + r.1 ≤ ((window r.1 64).container .src).len.toNat := by decide

theorem test_witness_SetFollowsItsRule :
    ∀ r ∈ setRows,
      (255 < 256 ∧ (0 = 0 ∨ r.1 < 0) ∧ (r.1 + 1 = 0 ∨ r.1 < r.1 + 1)) ∧
      (1 ≤ r.1 ∧ r.1 ≤ r.1 ∧ (window r.1 63).src.len.toNat < (window r.1 63).arg0.toNat + r.1) ∧
      1 ≤ r.1 ∧ r.1 ≤ r.1 ∧ (window r.1 64).arg0.toNat + r.1 ≤ (window r.1 64).src.len.toNat ∧
        (window r.1 64).src.bytes.wf = true := by decide

/-- The capacity of SRC set to 64: an APPEND of W bits fits at the length 64 − W, and not at one
more. -/
theorem test_witness_AppendFollowsItsRule :
    ∀ r ∈ appendRows,
      let s (n : Nat) : State := { withSrc n 0 with params := ⟨64, 64, 0⟩ }
      (255 < 256 ∧ (0 = 0 ∨ r.1 < 0) ∧ (r.1 + 1 = 0 ∨ r.1 < r.1 + 1)) ∧
      (1 ≤ r.1 ∧ r.1 ≤ r.1 ∧ (s (65 - r.1)).params.srcCapBits.toNat
        < (s (65 - r.1)).src.len.toNat + r.1) ∧
      1 ≤ r.1 ∧ r.1 ≤ r.1 ∧ (s (64 - r.1)).src.len.toNat + r.1
          ≤ (s (64 - r.1)).params.srcCapBits.toNat ∧
        (s (64 - r.1)).src.bytes.wf = true := by decide

theorem test_witness_SetThenGetReturnsTheValue :
    ∀ p ∈ setRows.zip getRows,
      1 ≤ p.1.1 ∧ p.1.1 ≤ p.1.1 ∧
        (window p.1.1 64).arg0.toNat + p.1.1 ≤ (window p.1.1 64).src.len.toNat ∧
        (window p.1.1 64).arg1.toNat < 2 ^ p.1.1 ∧ (window p.1.1 64).src.bytes.wf = true := by decide

/-- The window read ends where the window written starts. -/
theorem test_witness_SetKeepsDisjointWindows :
    1 ≤ 8 ∧ 8 ≤ 8 ∧ (window 8 64).arg0.toNat + 8 ≤ (window 8 64).src.len.toNat ∧
      (window 8 64).src.bytes.wf = true ∧ 1 ≤ 1 ∧ 1 ≤ 8 ∧
      (toWord 55).toNat + 1 ≤ (window 8 64).src.len.toNat ∧
      ((toWord 55).toNat + 1 ≤ (window 8 64).arg0.toNat ∨
        (window 8 64).arg0.toNat + 8 ≤ (toWord 55).toNat) ∧
      ∃ t, exec (.set8 8) (window 8 64) = .next t :=
  ⟨by decide, by decide, by decide, by decide, by decide, by decide, by decide, by decide, _, rfl⟩

theorem test_witness_SetIsIdempotent :
    ∀ r ∈ setRows, 1 ≤ r.1 ∧ r.1 ≤ r.1 ∧
      (window r.1 64).arg0.toNat + r.1 ≤ (window r.1 64).src.len.toNat ∧
      (window r.1 64).src.bytes.wf = true := by decide

theorem test_witness_AppendThenGetReturnsTheValue :
    ∀ p ∈ appendRows.zip getRows,
      1 ≤ p.1.1 ∧ p.1.1 ≤ p.1.1 ∧
        (window 8 64).src.len.toNat + p.1.1 ≤ (window 8 64).params.srcCapBits.toNat ∧
        (window 8 64).arg1.toNat < 2 ^ p.1.1 ∧ (window 8 64).src.bytes.wf = true := by decide

theorem test_witness_WidthsSeeTheSameBits :
    (∀ r ∈ setRows, ∀ r' ∈ getRows, 1 ≤ 8 ∧ 8 ≤ r.1 ∧ 8 ≤ r'.1 ∧
      (window 8 64).arg0.toNat + 8 ≤ (window 8 64).src.len.toNat ∧
      (window 8 64).src.bytes.wf = true) ∧
    ((window 64 64).arg0.toNat = 8 * 0 ∧
      8 * 0 + 64 ≤ ((window 64 64).container .src).len.toNat) := by decide

/-! ### The primitives and the codec -/

/-- n = 65 is past the range and n = 64 is in it; the same for the widths of POPCOUNT. -/
theorem test_witness_ChooseFollowsItsRule :
    64 < (pending 0x20 65 0 .reset).arg0.toNat ∧ (pending 0x20 64 32 .reset).arg0.toNat ≤ 64 := by
  decide

theorem test_witness_Floorlog2FollowsItsRule :
    (pending 0x21 0 0 .reset).arg0.toNat = 0 ∧ 0 < (pending 0x21 1 0 .reset).arg0.toNat := by decide

theorem test_witness_PopcountFollowsItsRule : 255 < 256 ∧ 64 < 65 ∧ 64 ≤ 64 := by decide

theorem test_witness_EncodeFollowsItsRule :
    255 < 256 ∧ (0 = 0 ∨ 64 < 0) ∧ (65 = 0 ∨ 64 < 65) ∧ (1 ≤ 1 ∧ 1 ≤ 64) ∧ 1 ≤ 64 ∧ 64 ≤ 64 := by
  decide

/-- An offset of C(8, 4) = 70 is past the range and 69 is the last of it; a class of 9 is past it. -/
theorem test_witness_DecodeFollowsItsRule :
    255 < 256 ∧ Nat.choose 8 4 ≤ (pending 0x824 4 70 .reset).arg1.toNat ∧
      8 < (pending 0x824 9 0 .reset).arg0.toNat ∧
      1 ≤ 8 ∧ 8 ≤ 64 ∧ (pending 0x824 4 69 .reset).arg0.toNat ≤ 8 ∧
      (pending 0x824 4 69 .reset).arg1.toNat
        < Nat.choose 8 (pending 0x824 4 69 .reset).arg0.toNat := by decide

theorem test_witness_EncodeAndDecodeAreInverse :
    1 ≤ 8 ∧ 8 ≤ 64 ∧ (pending 0x824 4 69 .reset).arg0.toNat ≤ 8 ∧
      (pending 0x824 4 69 .reset).arg1.toNat
        < Nat.choose 8 (pending 0x824 4 69 .reset).arg0.toNat := by decide

theorem test_witness_EncodeIsABijection : 1 ≤ 64 ∧ 64 ≤ 64 := by decide

theorem test_witness_OffsetIsTheLexicographicRank :
    1 ≤ 64 ∧ 64 ≤ 64 ∧ 2 ^ 64 - 1 < 2 ^ 64 := by decide

theorem test_witness_ClassAndOffsetFitTheirFields :
    1 ≤ 64 ∧ 64 ≤ 64 ∧ 2 ^ 64 - 1 < 2 ^ 64 := by decide

/-! ### The index -/

/-- The largest n, with the largest and with the automatic sizes. -/
theorem test_witness_GeometryFollowsItsRule :
    2 ^ 64 - 1 < 2 ^ 64 ∧ 64 ≤ 64 ∧ 255 < 256 ∧ 0 ≤ 64 ∧ 1 < 256 ∧ 1 ≤ 1 := by decide

/-- SRC = 0101010101 with b = 4 and s = 2 needs 26 bits of IDX: 25 are too few, 26 are enough. -/
def toBuild (idxCap : Nat) : State :=
  { withSrc 10 0x155 with params := ⟨64, toWord idxCap, 0⟩ }

theorem test_witness_BuildFollowsItsRule :
    255 < 256 ∧ 64 < 65 ∧ 4 ≤ 64 ∧
      (toBuild 25).params.idxCapBits.toNat
        < (Geometry.make (toBuild 25).src.len.toNat 4 2).cap ∧
      (Geometry.make (toBuild 26).src.len.toNat 4 2).cap ≤ (toBuild 26).params.idxCapBits.toNat ∧
      (toBuild 26).idx.bytes.wf = true := by decide

theorem test_witness_BuildIndexesItsInput :
    4 ≤ 64 ∧ 2 < 256 ∧
      (Geometry.make (toBuild 26).src.len.toNat 4 2).cap ≤ (toBuild 26).params.idxCapBits.toNat ∧
      (toBuild 26).idx.bytes.wf = true := by decide

theorem test_witness_BuildOfTheEmptySequence :
    State.reset.src.len = 0 ∧ 64 ≤ 64 ∧ 255 < 256 ∧ (1 : Word) ≠ 0 := by decide

/-- The index of V-BLD-S4b: B = 1010101010, b = 4, s = 2. -/
def built : State := withIndex 26 0x1948A20 10 0x403030204

/-- Its sequence: position p holds a 1 where p is even and below 10. -/
def evens (p : Nat) : Bool := Nat.testBit 0x155 p

theorem test_witness_indexes : built.indexes evens := by
  refine ⟨rfl, ⟨by decide, fun _ => ⟨?_, by decide, by decide⟩⟩, ?_⟩
  · unfold Geometry.legal; decide
  · unfold Geometry.holds onesBelow blockValue; decide +kernel

theorem test_witness_RankFollowsItsRule :
    State.reset.status.built = false ∧ built.status.built = true ∧
      built.idxN.toNat < ({ built with arg0 := 11 } : State).arg0.toNat ∧
      ({ built with arg0 := 10 } : State).arg0.toNat ≤ built.idxN.toNat := by decide

theorem test_witness_RankIsDualAndMonotone : 10 ≤ built.idxN.toNat ∧ 9 < built.idxN.toNat := by
  decide

theorem test_witness_SrcCommandsKeepTheIndex :
    (∃ t, exec .new built = .next t) ∧
      (∃ t, exec (.append64 64) built = .next t ∧ t.src.len = 64) ∧
      (∃ t, exec (.set8 1) { built with src := containerOf 1 0 } = .next t) ∧
      built.status.built = true ∧ (10 : Word).toNat ≤ built.idxN.toNat :=
  ⟨⟨_, rfl⟩, ⟨_, rfl, by decide⟩, ⟨_, rfl⟩, by decide, by decide⟩

/-- A NEW runs beside the index; it is neither a reset nor a BUILD. -/
theorem test_witness_IndexLastsUntilResetOrBuild :
    (pending 0x01 0 0 built).indexes evens ∧ (∃ t, step (pending 0x01 0 0 built) = .next t) ∧
      ¬ (pending 0x01 0 0 built).resets ∧
      ¬ ((pending 0x01 0 0 built).enginesTurn ∧
        ∃ rbs rss, decode (pending 0x01 0 0 built).cmd = some (.build rbs rss)) := by
  refine ⟨test_witness_indexes, ⟨_, rfl⟩, not_resets_of_empty rfl, ?_⟩
  rintro ⟨-, rbs, rss, h⟩
  have : decode (pending 0x01 0 0 built).cmd = some .new := by decide
  rw [this] at h
  cases h

/-! ### Whole-machine rules -/

theorem test_witness_CommandsKeepCmdAndOperands : ∃ t, exec .rank1 built = .next t := ⟨_, rfl⟩

theorem test_witness_OnlyBuildChangesTheIndex :
    (∃ t, exec .choose built = .next t) ∧ (∀ rbs rss, Instr.choose ≠ .build rbs rss) ∧
      Instr.choose ≠ .new ∧ (∀ bs, ∀ r ∈ setRows, Instr.choose ≠ r.2.2 bs) ∧
      ∀ bs, ∀ r ∈ appendRows, Instr.choose ≠ r.2.2 bs := by
  refine ⟨⟨_, rfl⟩, by simp, by simp, ?_, ?_⟩ <;> simp [setRows, appendRows]

theorem test_witness_UnlistedRegistersAreNotUsed :
    (∃ t, exec (.length .src) built = .next t) ∧ (Instr.length .src).readsArg0 = false ∧
      (Instr.length .src).readsArg1 = false ∧ (Instr.length .src).writesRes1 = false ∧
      (∃ t, exec (.set8 1) built = .next t) ∧ (Instr.set8 1).writesRes0 = false :=
  ⟨⟨_, rfl⟩, rfl, rfl, rfl, ⟨_, rfl⟩, rfl⟩

theorem test_witness_ParametersNeverChange : ∃ t, step (pending 0x01 0 0 built) = .next t :=
  ⟨_, rfl⟩

theorem test_witness_StatusBitsClearOnResetOnly :
    failed.status.legal ∧ ¬ failed.resets ∧ (∃ t, step failed = .next t) ∧
      failed.status.errv = true ∧ (pending 0x10 0 0 .reset).status.legal ∧
      ¬ (pending 0x10 0 0 .reset).resets ∧ (∃ t, step (pending 0x10 0 0 .reset) = .next t ∧
        t.status.built ≠ (pending 0x10 0 0 .reset).status.built) := by
  refine ⟨?_, not_resets_of_empty rfl, ⟨_, rfl⟩, rfl, ?_, not_resets_of_empty rfl, _, rfl, by decide⟩ <;>
    (unfold Status.legal; decide)

/-! The invariant: a block whose SRC has a 1 at position 0, past its length of 0, with a RANK pending
on the index above. -/

/-- A block with the byte v first in SRC, an index, and a RANK1 pending. -/
def rankPending (v : Memory) : State :=
  pending 0x111 10 0 { built with src := { len := 0, bytes := v } }

theorem bit_of_le_one {m : Memory} (h : m = [] ∨ m = [(0, 1)]) (p : Nat) (hp : 8 ≤ p) :
    ({ len := 0, bytes := m } : Container).bit p = false := by
  have : p / 8 ≠ 0 := by omega
  rcases h with rfl | rfl <;>
    simp [Container.bit, Memory.readByte, Config.unlistedByte, Ne.symm this]

theorem built_idx_high (p : Nat) (hp : 32 ≤ p) : built.idx.bit p = false := by
  have : built.idx.bytes = [(0, 0x20), (1, 0x8A), (2, 0x94), (3, 0x01)] := by decide
  have h : p / 8 ≠ 0 ∧ p / 8 ≠ 1 ∧ p / 8 ≠ 2 ∧ p / 8 ≠ 3 := by omega
  obtain ⟨h0, h1, h2, h3⟩ := h
  rw [Container.bit, this]
  simp [Memory.readByte, Config.unlistedByte, Ne.symm h0, Ne.symm h1, Ne.symm h2, Ne.symm h3]

theorem built_inv_parts :
    built.idx.bytes.wf = true ∧ built.idx.len.toNat ≤ built.params.idxCapBits.toNat ∧
      built.params.base % 0x100 = 0 ∧ 8 ≤ built.params.srcCapBits.toNat ∧
      32 ≤ built.params.idxCapBits.toNat := by decide

theorem rankPending_inv {m : Memory} (h : m = [] ∨ m = [(0, 1)]) : (rankPending m).Inv := by
  obtain ⟨h1, h2, h3, h4, h5⟩ := built_inv_parts
  refine ⟨⟨by rcases h with rfl | rfl <;> decide, by simp [rankPending, pending],
    fun p hp => bit_of_le_one h p (h4.trans hp)⟩,
    ⟨h1, h2, fun p hp => built_idx_high p (h5.trans hp)⟩, ?_, test_witness_indexes.2.1, h3⟩
  exact ⟨⟨fun _ => rfl, fun _ => rfl⟩, Nat.zero_le _, fun h => by cases h⟩

theorem test_witness_StepKeepsTheInvariant :
    (rankPending []).Inv ∧ ∃ t, step (rankPending []) = .next t :=
  ⟨rankPending_inv (.inl rfl), _, rfl⟩

/-- The two differ in the bit at position 0 of an empty SRC. -/
theorem test_witness_UnspecifiedBitsAreNeverObserved :
    (rankPending []).Inv ∧ (rankPending [(0, 1)]).Inv ∧
      (rankPending []).sameObservable (rankPending [(0, 1)]) ∧
      (rankPending []).src.bit 0 ≠ (rankPending [(0, 1)]).src.bit 0 :=
  ⟨rankPending_inv (.inl rfl), rankPending_inv (.inr rfl),
    ⟨rfl, ⟨rfl, fun p hp => by simp [rankPending, pending] at hp⟩, ⟨rfl, fun _ _ => rfl⟩⟩,
    by decide⟩

end Sys2Proof.Tests
end

-- ==== The parameters (rules R5, R29, R39) ====
section
/-! The parameters along a step: no command writes them, so neither does the engine's step, and no
host access or reset does. -/

namespace Sys2Proof.Machine

/-- The error latch and each of the seven successes of a command leave the parameters. -/
theorem exec_params {i : Instr} {s t : State} (h : exec i s = .next t) : t.params = s.params := by
  rcases exec_cases i s with ⟨e, he⟩ | ⟨v, he⟩ | ⟨v, v', wb, -, he⟩ | ⟨-, -, he⟩ |
    ⟨w, bs, -, -, -, he⟩ | ⟨w, bs, -, -, -, he⟩ | ⟨rbs, rss, -, -, -, he⟩
  all_goals
    obtain rfl := Host.Outcome.next.inj (he.symm.trans h)
    simp

theorem runCommand_params {s t : State} (h : runCommand s = .next t) : t.params = s.params := by
  rcases runCommand_cases s with ⟨-, he⟩ | ⟨i, -, he⟩
  · obtain rfl := Host.Outcome.next.inj (he.symm.trans h)
    exact s.raise_params .illegalCommand
  · exact exec_params (he.symm.trans h)

/-- Settles O54, by the cases of a step: only the engine's step needs the commands' own frame. -/
theorem parametersNeverChange : Obligations.ParametersNeverChange := by
  unfold Obligations.ParametersNeverChange
  intro s t h
  rcases step_cases h with ⟨-, hrun⟩ | ⟨-, rfl⟩ | ⟨v, n, rfl⟩ | rfl | ⟨-, -, v, rfl⟩ |
    ⟨-, v, rfl | rfl⟩
  case inl => exact (runCommand_params hrun).trans s.turnTaken_params
  all_goals simp

end Sys2Proof.Machine
end

-- ==== The invariant (rules R23, R28, R34, R210) ====
section
/-! Each conjunct of `State.Inv` is kept by the operations that write its fields; a command keeps the
whole of it, and so does a step. -/

namespace Sys2Proof

/-! ### Decoded commands are well-formed -/

theorem bits_lt (w : Word) (hi lo : Nat) : bits w hi lo < 2 ^ (hi + 1 - lo) :=
  Nat.mod_lt _ (Nat.two_pow_pos _)

theorem fitsByte_bits_15_8 (w : Word) : fitsByte (bits w 15 8) = true :=
  decide_eq_true (bits_lt w 15 8)

theorem fitsByte_bits_23_16 (w : Word) : fitsByte (bits w 23 16) = true :=
  decide_eq_true (bits_lt w 23 16)

theorem wellFormed_getOfWidthCode (wc bs : Nat) (sel : Sel) :
    (getOfWidthCode wc bs sel).wellFormed = fitsByte bs := by
  unfold getOfWidthCode; split <;> rfl

theorem wellFormed_setOfWidthCode (wc bs : Nat) :
    (setOfWidthCode wc bs).wellFormed = fitsByte bs := by
  unfold setOfWidthCode; split <;> rfl

theorem wellFormed_appendOfWidthCode (wc bs : Nat) :
    (appendOfWidthCode wc bs).wellFormed = fitsByte bs := by
  unfold appendOfWidthCode; split <;> rfl

/-- The fields of a decoded command come from eight bits of the word (rule R76). -/
theorem wellFormed_of_decode {w : Word} {i : Instr} (h : decode w = some i) :
    i.wellFormed = true := by
  have h8 := fitsByte_bits_15_8 w
  obtain ⟨-, ⟨-, -, rfl⟩ | ⟨-, -, rfl⟩ | ⟨-, -, rfl⟩ | ⟨-, -, rfl⟩ | ⟨-, -, -, rfl⟩ | ⟨-, -, rfl⟩ |
    ⟨-, -, rfl⟩ | ⟨-, -, rfl⟩ | ⟨-, -, rfl⟩ | ⟨-, -, rfl⟩ | ⟨-, -, rfl⟩ | ⟨-, -, rfl⟩⟩ :=
    decode_cases h
  · rfl
  · rw [wellFormed_getOfWidthCode, h8]
  · rw [wellFormed_setOfWidthCode, h8]
  · rw [wellFormed_appendOfWidthCode, h8]
  · rfl
  · rw [Instr.wellFormed, h8, fitsByte_bits_23_16]; rfl
  · split <;> rfl
  · rfl
  · rfl
  · exact h8
  · exact h8
  · exact h8

namespace Machine

/-! ### Containers within their capacities (rule R34) -/

theorem Container.legal_empty (cap : Nat) : Container.empty.legal cap :=
  ⟨rfl, Nat.zero_le _, fun p _ => Container.bit_empty p⟩

theorem Container.legal_setLen {c : Container} {cap n : Nat} (h : c.legal cap) (hn : n ≤ cap) :
    (c.setLen n).legal cap := by
  obtain ⟨hwf, -, hbit⟩ := h
  refine ⟨hwf, ?_, hbit⟩
  rw [Container.len_setLen, BitVec.toNat_ofNat]
  exact (Nat.mod_le _ _).trans hn

theorem Container.legal_memWrite {c : Container} {cap p n : Nat} (h : c.legal cap)
    (hp : p + n ≤ cap) (v : Nat) : (c.memWrite p n v).legal cap := by
  obtain ⟨hwf, hlen, hbit⟩ := h
  refine ⟨Container.wf_memWrite hwf _ _ _, by rwa [Container.len_memWrite], fun q hq => ?_⟩
  rw [Container.bit_memWrite hwf, if_neg (by omega), hbit q hq]

theorem Container.legal_zeroFill {c : Container} {cap : Nat} (h : c.legal cap) (L : Nat) :
    (c.zeroFill L).legal cap := by
  obtain ⟨hwf, hlen, hbit⟩ := h
  refine ⟨Container.wf_zeroFill hwf L, hlen, fun q hq => ?_⟩
  rw [Container.bit_zeroFill hwf, hbit q hq, ite_self]

theorem Container.legal_buildImage {g : Geometry} {idx : Container} {cap : Nat} (hl : g.legal)
    (src : Container) (h : idx.legal cap) (hc : g.cap ≤ cap) : (buildImage g src idx).legal cap := by
  obtain ⟨hwf, -, hbit⟩ := h
  obtain ⟨hlen, hwf', -, hrest⟩ := buildImage_spec hl src hwf
  refine ⟨hwf', ?_, fun q hq => by rw [hrest q (hc.trans hq), hbit q hq]⟩
  rw [hlen, BitVec.toNat_ofNat]
  exact (Nat.mod_le _ _).trans hc

/-! ### The error fields (rules R23, R210, R213) -/

theorem Status.legal_reset : Status.reset.legal :=
  ⟨⟨fun _ => rfl, fun _ => rfl⟩, Nat.zero_le _, fun _ => rfl⟩

theorem Status.legal_latch (e : ErrorKind) (st : Status) : (st.latch e).legal := by
  refine ⟨?_, ?_, fun _ => rfl⟩ <;> cases e <;> simp [ErrorKind.code]

theorem Status.legal_complete {st : Status} (h : st.legal) : st.complete.legal :=
  ⟨h.1, h.2.1, fun _ => rfl⟩

theorem Status.legal_overrun {st : Status} (h : st.legal) : st.overrun.legal := h

theorem Status.legal_markBuilt {st : Status} (h : st.legal) : st.markBuilt.legal := h

theorem Status.legal_accept {st : Status} (h : st.legal) (he : st.errv = false) :
    st.accept.legal :=
  ⟨h.1, h.2.1, fun ht => absurd (he.symm.trans ht) Bool.false_ne_true⟩

/-! ### The registers that describe the index (rules R27, R28, R188) -/

theorem State.indexLegal_of_eq {s t : State} (h : s.indexLegal) (hn : t.idxN = s.idxN)
    (hg : t.idxGeom = s.idxGeom) (hi : t.idx = s.idx) (hb : t.status.built = s.status.built) :
    t.indexLegal := by
  simpa only [State.indexLegal, State.geometry, hn, hg, hi, hb] using h

/-- The registers BUILD writes describe the image it writes, when the image fits a container. -/
theorem State.indexLegal_commitIndex {s : State} {g : Geometry} (hl : g.legal)
    (hwf : s.idx.bytes.wf = true) (hc : g.cap ≤ s.params.idxCapBits.toNat) :
    (s.commitIndex g).indexLegal := by
  have hgeom : (s.commitIndex g).geometry = g := State.geometry_eq hl rfl rfl
  refine ⟨fun h => by simp at h, fun _ => ?_⟩
  rw [hgeom]
  refine ⟨hl, rfl, ?_⟩
  rw [State.commitIndex_idx, (buildImage_spec hl s.src hwf).1, BitVec.toNat_ofNat,
    Nat.mod_eq_of_lt (hc.trans_lt s.params.idxCapBits.isLt)]

/-! ### The whole invariant -/

/-- A change that leaves the parameters and the index alone asks for SRC and STATUS only. -/
theorem State.Inv.of_index_eq {s t : State} (h : s.Inv)
    (hsrc : t.src.legal s.params.srcCapBits.toNat) (hst : t.status.legal)
    (hp : t.params = s.params) (hn : t.idxN = s.idxN) (hg : t.idxGeom = s.idxGeom)
    (hi : t.idx = s.idx) (hb : t.status.built = s.status.built) : t.Inv := by
  obtain ⟨-, hidx, -, hind, hbase⟩ := h
  refine ⟨by rwa [hp], by rwa [hp, hi], hst, State.indexLegal_of_eq hind hn hg hi hb, by rwa [hp]⟩

theorem State.Inv.raise {s : State} (h : s.Inv) (e : ErrorKind) : (s.raise e).Inv :=
  h.of_index_eq h.1 (Status.legal_latch e _) rfl rfl rfl rfl rfl

theorem State.Inv.turnTaken {s : State} (h : s.Inv) : s.turnTaken.Inv := h

theorem State.Inv.resetBlock {s : State} (h : s.Inv) : s.resetBlock.Inv := by
  obtain ⟨-, -, -, -, hbase⟩ := h
  exact ⟨Container.legal_empty _, Container.legal_empty _, Status.legal_reset,
    ⟨fun _ => ⟨rfl, rfl, rfl⟩, fun h => by cases h⟩, hbase⟩

theorem State.Inv.setRes0 {s : State} (h : s.Inv) (v : Nat) : (s.setRes0 v).Inv := h

theorem State.Inv.setRes1 {s : State} (h : s.Inv) (v : Nat) : (s.setRes1 v).Inv := h

theorem State.Inv.complete {s : State} (h : s.Inv) : s.complete.Inv := by
  obtain ⟨hsrc, -, hst, -, -⟩ := id h
  exact h.of_index_eq hsrc (Status.legal_complete hst) rfl rfl rfl rfl rfl

theorem State.Inv.setSrc {s : State} (h : s.Inv) {c : Container}
    (hc : c.legal s.params.srcCapBits.toNat) : (s.setSrc c).Inv := by
  obtain ⟨-, -, hst, -, -⟩ := id h
  exact h.of_index_eq hc hst rfl rfl rfl rfl rfl

theorem State.Inv.commitIndex {s : State} (h : s.Inv) {g : Geometry} (hl : g.legal)
    (hc : g.cap ≤ s.params.idxCapBits.toNat) : (s.commitIndex g).Inv := by
  obtain ⟨hsrc, hidx, hst, -, hbase⟩ := h
  exact ⟨hsrc, Container.legal_buildImage hl s.src hidx hc, Status.legal_markBuilt hst,
    State.indexLegal_commitIndex hl hidx.1 hc, hbase⟩

/-- Every well-formed command keeps the invariant, in success and in error. -/
theorem exec_keeps_inv {i : Instr} {s t : State} (h : s.Inv) (hwf : i.wellFormed = true)
    (he : exec i s = .next t) : t.Inv := by
  obtain ⟨hsrc, -, hst, -, -⟩ := id h
  have hlen := hsrc.2.1
  rcases exec_cases i s with ⟨e, hx⟩ | ⟨v, hx⟩ | ⟨v, v', wb, -, hx⟩ | ⟨-, hcap, hx⟩ |
    ⟨w, bs, -, -, hr, hx⟩ | ⟨w, bs, -, -, hcap, hx⟩ | ⟨rbs, rss, rfl, hb, hcap, hx⟩
  all_goals obtain rfl := Host.Outcome.next.inj (hx.symm.trans he)
  · exact h.raise e
  · exact (h.setRes0 v).complete
  · exact ((h.setRes0 v).setRes1 v').complete
  · exact (h.setSrc (Container.legal_zeroFill (Container.legal_setLen hsrc hcap) _)).complete
  · exact (h.setSrc (Container.legal_memWrite hsrc (hr.trans hlen) _)).complete
  · have hnew := Container.legal_setLen hsrc hcap
    exact ((h.setSrc (Container.legal_memWrite hnew hcap _)).setRes0 _).complete
  · have hrss : rss < 256 := by
      simpa [fitsByte] using (Bool.and_eq_true_iff.mp hwf).2
    exact (h.commitIndex (Geometry.legal_make s.src.len.isLt hb hrss) hcap).complete

theorem runCommand_keeps_inv {s t : State} (h : s.Inv) (hr : runCommand s = .next t) : t.Inv := by
  rcases runCommand_cases s with ⟨-, hx⟩ | ⟨i, hd, hx⟩
  · obtain rfl := Host.Outcome.next.inj (hx.symm.trans hr)
    exact h.raise .illegalCommand
  · exact exec_keeps_inv h (wellFormed_of_decode hd) (hx.symm.trans hr)

/-- Settles O56, by the cases of a step: the engine's step keeps the invariant as its command does,
and every other step leaves the containers and the index alone or resets them. -/
theorem stepKeepsTheInvariant : Obligations.StepKeepsTheInvariant := by
  unfold Obligations.StepKeepsTheInvariant
  intro s t h hstep
  obtain ⟨hsrc, -, hst, -, -⟩ := id h
  rcases step_cases hstep with ⟨-, hrun⟩ | ⟨-, rfl⟩ | ⟨v, n, rfl⟩ | rfl | ⟨-, he, v, rfl⟩ |
    ⟨-, v, rfl | rfl⟩
  · exact runCommand_keeps_inv h.turnTaken hrun
  · exact h.turnTaken.resetBlock
  · exact h
  · exact h.of_index_eq hsrc (Status.legal_overrun hst) rfl rfl rfl rfl rfl
  · exact h.of_index_eq hsrc (Status.legal_accept hst he) rfl rfl rfl rfl rfl
  · exact h
  · exact h

end Machine

end Sys2Proof
end

-- ==== Unobservable container bits (rule R35) ====
section
/-! Two states that differ in container bits at or past the lengths alone: every operation answers
them alike, and its results differ in such bits alone. The one reading of IDX that needs the
invariant is the rank walk, which stays below CAP. -/

namespace Sys2Proof.Machine

/-! ### Containers -/

/-- Reading a window below the length. -/
theorem Container.sameBits.memRead {c d : Container} (h : c.sameBits d) {p n : Nat}
    (hp : p + n ≤ c.len.toNat) : c.memRead p n = d.memRead p n :=
  Container.memRead_congr fun k hk => h.2 (p + k) (by omega)

theorem Container.sameBits.memWrite {c d : Container} (h : c.sameBits d)
    (hc : c.bytes.wf = true) (hd : d.bytes.wf = true) (p n v : Nat) :
    (c.memWrite p n v).sameBits (d.memWrite p n v) := by
  refine ⟨by simpa using h.1, fun q hq => ?_⟩
  rw [Container.len_memWrite] at hq
  rw [Container.bit_memWrite hc, Container.bit_memWrite hd, h.2 q hq]

theorem toNat_toWord_le (n : Nat) : (toWord n).toNat ≤ n := by
  rw [BitVec.toNat_ofNat]; exact Nat.mod_le _ _

/-- NEW and BUILD start from n zeroed bits, whatever stood there. -/
theorem Container.sameBits_zeroed {c d : Container} (hc : c.bytes.wf = true)
    (hd : d.bytes.wf = true) (n : Nat) :
    ((c.setLen n).zeroFill n).sameBits ((d.setLen n).zeroFill n) := by
  refine ⟨rfl, fun q hq => ?_⟩
  have hq : q < n := Nat.lt_of_lt_of_le hq (toNat_toWord_le n)
  rw [Container.bit_zeroFill (c := c.setLen n) hc, Container.bit_zeroFill (c := d.setLen n) hd,
    if_pos hq, if_pos hq]

/-- APPEND writes every bit by which the length grows. -/
theorem Container.sameBits.append {c d : Container} (h : c.sameBits d) (hc : c.bytes.wf = true)
    (hd : d.bytes.wf = true) (n v : Nat) :
    ((c.setLen (c.len.toNat + n)).memWrite c.len.toNat n v).sameBits
      ((d.setLen (d.len.toNat + n)).memWrite d.len.toNat n v) := by
  rw [← h.1]
  refine ⟨by simp, fun q hq => ?_⟩
  rw [Container.len_memWrite, Container.len_setLen] at hq
  have hq : q < c.len.toNat + n := Nat.lt_of_lt_of_le hq (toNat_toWord_le _)
  rw [Container.bit_memWrite (c := c.setLen _) hc, Container.bit_memWrite (c := d.setLen _) hd]
  split
  · rfl
  · exact h.2 q (by omega)

/-! ### The construction of BUILD -/

/-- Two stages of the construction that differ in unobservable bits of the image alone. -/
structure BuildCursor.SameBits (k l : BuildCursor) : Prop where
  rest : l = { k with image := l.image }
  image : k.image.sameBits l.image
  wf_left : k.image.bytes.wf = true
  wf_right : l.image.bytes.wf = true

theorem BuildCursor.SameBits.header {k l : BuildCursor} (h : k.SameBits l) (g : Geometry) :
    (buildHeader g k).SameBits (buildHeader g l) := by
  obtain ⟨hrest, himage, hk, hl⟩ := h
  rw [hrest]
  unfold buildHeader
  dsimp only
  split
  · exact ⟨rfl, himage.memWrite hk hl _ _ _, Container.wf_memWrite hk _ _ _,
      Container.wf_memWrite hl _ _ _⟩
  · exact ⟨rfl, himage, hk, hl⟩

/-- One block, read from inputs that agree below their length n. -/
theorem BuildCursor.SameBits.block {k l : BuildCursor} (h : k.SameBits l) {g : Geometry}
    {src src' : Container} (hsrc : src.sameBits src') (hn : g.n = src.len.toNat) :
    (buildBlock g src k).SameBits (buildBlock g src' l) := by
  obtain ⟨hrest, himage, hk, hl⟩ := h
  have hread : src.memRead k.inCursor (min g.b (g.n - k.inCursor))
      = src'.memRead k.inCursor (min g.b (g.n - k.inCursor)) :=
    Container.memRead_congr fun t ht => hsrc.2 _ (by omega)
  rw [hrest]
  simp only [buildBlock, hread]
  exact ⟨rfl,
    (himage.memWrite hk hl _ _ _).memWrite (Container.wf_memWrite hk _ _ _)
      (Container.wf_memWrite hl _ _ _) _ _ _,
    Container.wf_memWrite (Container.wf_memWrite hk _ _ _) _ _ _,
    Container.wf_memWrite (Container.wf_memWrite hl _ _ _) _ _ _⟩

theorem BuildCursor.SameBits.loop {k l : BuildCursor} (h : k.SameBits l) {g : Geometry}
    {src src' : Container} (hsrc : src.sameBits src') (hn : g.n = src.len.toNat) (m : Nat) :
    (buildLoop g src m k).SameBits (buildLoop g src' m l) := by
  induction m generalizing k l with
  | zero => exact h
  | succ m ih => exact ih ((h.header g).block hsrc hn)

/-- BUILD reads no bit of SRC past its length, and no bit of the IDX it replaces. -/
theorem buildImage_sameBits {g : Geometry} {src src' idx idx' : Container}
    (hsrc : src.sameBits src') (hn : g.n = src.len.toNat) (hi : idx.bytes.wf = true)
    (hi' : idx'.bytes.wf = true) : (buildImage g src idx).sameBits (buildImage g src' idx') := by
  have hstart : BuildCursor.SameBits
      { j := 0, inCursor := 0, outCursor := 0, cumRank := 0
        image := (idx.setLen g.cap).zeroFill g.cap }
      { j := 0, inCursor := 0, outCursor := 0, cumRank := 0
        image := (idx'.setLen g.cap).zeroFill g.cap } :=
    ⟨rfl, Container.sameBits_zeroed hi hi' g.cap, Container.wf_zeroFill hi _,
      Container.wf_zeroFill hi' _⟩
  exact (hstart.loop hsrc hn g.blocks).image

/-! ### The rank walk -/

/-- The class fields of existing blocks of one superblock lie within IDX. -/
theorem classSum_congr {g : Geometry} (hs : 0 < g.s) {c d : Container} (h : c.sameBits d)
    (hcap : g.cap ≤ c.len.toNat) {sb m t : Nat} (ht : t + m ≤ g.s)
    (hm : ∀ u, u < t + m → sb * g.s + u < g.blocks) :
    classSum g c m (sb * g.ssbs + g.crfs + t * g.sbs)
      = classSum g d m (sb * g.ssbs + g.crfs + t * g.sbs) := by
  induction m generalizing t with
  | zero => rfl
  | succ m ih =>
    have hin := Geometry.cls_le_cap hs (hm t (by omega))
    rw [Geometry.cls_in_super g (by omega)] at hin
    have hnext : sb * g.ssbs + g.crfs + t * g.sbs + g.sbs
        = sb * g.ssbs + g.crfs + (t + 1) * g.sbs := by ring
    rw [classSum, classSum, h.memRead (by omega), hnext,
      ih (t := t + 1) (by omega) fun u hu => hm u (by omega)]

/-- The walk of rule R194 reads no bit at or past CAP. -/
theorem rankOnes_congr {g : Geometry} (hl : g.legal) {c d : Container} (h : c.sameBits d)
    (hcap : g.cap ≤ c.len.toNat) {i : Nat} (hi : i ≤ g.n) : rankOnes g c i = rankOnes g d i := by
  obtain ⟨hb, -, hs, -⟩ := hl
  have hs : 0 < g.s := by omega
  unfold rankOnes
  by_cases h0 : i = 0
  · rw [if_pos h0, if_pos h0]
  rw [if_neg h0, if_neg h0]
  dsimp only
  obtain ⟨hsb, hfull, -, -, hblocks, hpart⟩ := Geometry.walk hb hs (by omega) hi rfl rfl rfl
  generalize g.walkStart i = sb at *
  generalize (i - sb * (g.s * g.b)) / g.b = full at *
  generalize (i - sb * (g.s * g.b)) % g.b = rem at *
  have hhdr : c.memRead (sb * g.ssbs) g.crfs = d.memRead (sb * g.ssbs) g.crfs :=
    h.memRead ((Geometry.hdr_le_cap hs hsb).trans hcap)
  have hsum := classSum_congr hs h hcap (sb := sb) (m := full) (t := 0) (by omega) (by simpa)
  rw [Nat.zero_mul, Nat.add_zero] at hsum
  rw [hhdr, hsum]
  split
  next hr =>
    obtain ⟨hf, hj⟩ := hpart hr
    have hin := Geometry.cls_le_cap hs hj
    rw [Geometry.cls_in_super g hf] at hin
    rw [partialRank, partialRank, h.memRead (by omega), h.memRead (by omega)]
  next => rfl

/-! ### Updates of the state -/

/-- The state with other containers. -/
def State.withContainers (s : State) (c d : Container) : State := { s with src := c, idx := d }

theorem State.sameObservable_iff {s t : State} :
    s.sameObservable t ↔
      ∃ c d, t = s.withContainers c d ∧ s.src.sameBits c ∧ s.idx.sameBits d := by
  constructor
  · rintro ⟨ht, hsrc, hidx⟩
    exact ⟨t.src, t.idx, ht, hsrc, hidx⟩
  · rintro ⟨c, d, rfl, hsrc, hidx⟩
    exact ⟨rfl, hsrc, hidx⟩

/-- An update that commutes with a change of the containers and leaves them keeps the relation. -/
theorem State.sameObservable.map {s t : State} (h : s.sameObservable t) {f : State → State}
    (hf : ∀ u c d, f (u.withContainers c d) = (f u).withContainers c d)
    (hsrc : (f s).src = s.src) (hidx : (f s).idx = s.idx) : (f s).sameObservable (f t) := by
  obtain ⟨c, d, rfl, hc, hd⟩ := State.sameObservable_iff.mp h
  exact State.sameObservable_iff.mpr ⟨c, d, hf s c d, by rwa [hsrc], by rwa [hidx]⟩

section
variable {s t : State} (h : s.sameObservable t)
include h

theorem State.sameObservable.cmd_eq : t.cmd = s.cmd := by
  obtain ⟨c, d, rfl, -, -⟩ := State.sameObservable_iff.mp h; rfl

theorem State.sameObservable.status_eq : t.status = s.status := by
  obtain ⟨c, d, rfl, -, -⟩ := State.sameObservable_iff.mp h; rfl

theorem State.sameObservable.params_eq : t.params = s.params := by
  obtain ⟨c, d, rfl, -, -⟩ := State.sameObservable_iff.mp h; rfl

theorem State.sameObservable.agenda_eq : t.agenda = s.agenda := by
  obtain ⟨c, d, rfl, -, -⟩ := State.sameObservable_iff.mp h; rfl

theorem State.sameObservable.raise (e : ErrorKind) : (s.raise e).sameObservable (t.raise e) :=
  h.map (f := fun u => u.raise e) (fun _ _ _ => rfl) rfl rfl

theorem State.sameObservable.complete : s.complete.sameObservable t.complete :=
  h.map (fun _ _ _ => rfl) rfl rfl

theorem State.sameObservable.setRes0 (v : Nat) : (s.setRes0 v).sameObservable (t.setRes0 v) :=
  h.map (f := fun u => u.setRes0 v) (fun _ _ _ => rfl) rfl rfl

theorem State.sameObservable.setRes1 (v : Nat) : (s.setRes1 v).sameObservable (t.setRes1 v) :=
  h.map (f := fun u => u.setRes1 v) (fun _ _ _ => rfl) rfl rfl

theorem State.sameObservable.answerRead (v : Word) :
    (s.answerRead v).sameObservable (t.answerRead v) :=
  h.map (f := fun u => u.answerRead v) (fun _ _ _ => rfl) rfl rfl

theorem State.sameObservable.answerFree : s.answerFree.sameObservable t.answerFree :=
  h.map (fun _ _ _ => rfl) rfl rfl

theorem State.sameObservable.dropWrite : s.dropWrite.sameObservable t.dropWrite :=
  h.map (fun _ _ _ => rfl) rfl rfl

theorem State.sameObservable.resetBlock : s.resetBlock.sameObservable t.resetBlock := by
  obtain ⟨c, d, rfl, -, -⟩ := State.sameObservable_iff.mp h
  exact ⟨rfl, ⟨rfl, fun _ _ => rfl⟩, ⟨rfl, fun _ _ => rfl⟩⟩

theorem State.sameObservable.setSrc {a b : Container} (hab : a.sameBits b) :
    (s.setSrc a).sameObservable (t.setSrc b) := by
  obtain ⟨c, d, rfl, -, hd⟩ := State.sameObservable_iff.mp h
  exact ⟨rfl, hab, hd⟩

theorem State.sameObservable.commitIndex {g : Geometry} (hn : g.n = s.src.len.toNat)
    (hs : s.idx.bytes.wf = true) (ht : t.idx.bytes.wf = true) :
    (s.commitIndex g).sameObservable (t.commitIndex g) := by
  obtain ⟨c, d, rfl, hc, -⟩ := State.sameObservable_iff.mp h
  exact ⟨rfl, hc, buildImage_sameBits hc hn hs ht⟩

theorem State.sameObservable.container (sel : Sel) :
    (s.container sel).sameBits (t.container sel) := by
  cases sel with
  | src => exact h.2.1
  | idx => exact h.2.2

end

/-! ### The commands -/

/-- Two meanings that make the same check answer alike when they do on either side of it. -/
theorem Answer.sameObservable_ite {p : Prop} [Decidable p] {a b a' b' : Answer}
    (ha : p → Answer.sameObservable a a') (hb : ¬ p → Answer.sameObservable b b') :
    Answer.sameObservable (if p then a else b) (if p then a' else b') := by
  split
  next hp => exact ha hp
  next hp => exact hb hp

section
variable {s t : State} (h : s.sameObservable t)
include h

theorem getField_sameObservable (w bs : Nat) (sel : Sel) :
    Answer.sameObservable (getField w bs sel s) (getField w bs sel t) := by
  have hsel := h.container sel
  obtain ⟨c, d, rfl, -, -⟩ := State.sameObservable_iff.mp h
  unfold getField
  dsimp only
  rw [← hsel.1]
  refine Answer.sameObservable_ite (fun _ => h.raise _) fun _ =>
    Answer.sameObservable_ite (fun _ => h.raise _) fun hr => ?_
  rw [hsel.memRead (Nat.not_lt.mp hr)]
  exact (h.setRes0 _).complete

theorem execLength_sameObservable (sel : Sel) :
    Answer.sameObservable (execLength sel s) (execLength sel t) := by
  unfold execLength
  rw [(h.container sel).1]
  exact (h.setRes0 _).complete

theorem execChoose_sameObservable : Answer.sameObservable (execChoose s) (execChoose t) := by
  obtain ⟨c, d, rfl, -, -⟩ := State.sameObservable_iff.mp h
  exact Answer.sameObservable_ite (fun _ => h.raise _) fun _ => (h.setRes0 _).complete

theorem execFloorlog2_sameObservable :
    Answer.sameObservable (execFloorlog2 s) (execFloorlog2 t) := by
  obtain ⟨c, d, rfl, -, -⟩ := State.sameObservable_iff.mp h
  exact (h.setRes0 (floorLog2 s.operand0)).complete

theorem execPopcount_sameObservable (wb : Nat) :
    Answer.sameObservable (execPopcount wb s) (execPopcount wb t) := by
  obtain ⟨c, d, rfl, -, -⟩ := State.sameObservable_iff.mp h
  exact Answer.sameObservable_ite (fun _ => h.raise _) fun _ => (h.setRes0 _).complete

theorem execEncode_sameObservable (wb : Nat) :
    Answer.sameObservable (execEncode wb s) (execEncode wb t) := by
  obtain ⟨c, d, rfl, -, -⟩ := State.sameObservable_iff.mp h
  exact Answer.sameObservable_ite (fun _ => h.raise _) fun _ =>
    ((h.setRes0 _).setRes1 _).complete

theorem execDecode_sameObservable (wb : Nat) :
    Answer.sameObservable (execDecode wb s) (execDecode wb t) := by
  obtain ⟨c, d, rfl, -, -⟩ := State.sameObservable_iff.mp h
  exact Answer.sameObservable_ite (fun _ => h.raise _) fun _ =>
    Answer.sameObservable_ite (fun _ => h.raise _) fun _ =>
      Answer.sameObservable_ite (fun _ => h.raise _) fun _ => (h.setRes0 _).complete

/-- The rank walk is the one place that needs the geometry to describe IDX (rule R188). -/
theorem rankQuery_sameObservable (hind : s.indexLegal) (f : Nat → Nat → Nat) :
    Answer.sameObservable (rankQuery f s) (rankQuery f t) := by
  obtain ⟨c, d, rfl, -, hd⟩ := State.sameObservable_iff.mp h
  refine Answer.sameObservable_ite (fun _ => h.raise _) fun hb =>
    Answer.sameObservable_ite (fun _ => h.raise _) fun hi => ?_
  obtain ⟨hl, -, hcap⟩ := hind.2 (Bool.not_eq_false _ ▸ hb)
  have hrank : rankOnes s.geometry s.idx s.operand0 = rankOnes s.geometry d s.operand0 :=
    rankOnes_congr hl hd hcap.ge (Nat.not_lt.mp hi)
  rw [hrank]
  exact (h.setRes0 _).complete

variable (hs : s.src.bytes.wf = true) (ht : t.src.bytes.wf = true)
include hs ht

theorem execNew_sameObservable : Answer.sameObservable (execNew s) (execNew t) := by
  obtain ⟨c, d, rfl, -, -⟩ := State.sameObservable_iff.mp h
  exact Answer.sameObservable_ite (fun _ => h.raise _) fun _ =>
    (h.setSrc (Container.sameBits_zeroed hs ht _)).complete

theorem setField_sameObservable (w bs : Nat) :
    Answer.sameObservable (setField w bs s) (setField w bs t) := by
  have hsrc : s.src.sameBits t.src := h.2.1
  obtain ⟨c, d, rfl, -, -⟩ := State.sameObservable_iff.mp h
  unfold setField
  dsimp only
  rw [← hsrc.1]
  exact Answer.sameObservable_ite (fun _ => h.raise _) fun _ =>
    Answer.sameObservable_ite (fun _ => h.raise _) fun _ =>
      (h.setSrc (hsrc.memWrite hs ht _ _ _)).complete

theorem appendField_sameObservable (w bs : Nat) :
    Answer.sameObservable (appendField w bs s) (appendField w bs t) := by
  have hlen : s.src.len = t.src.len := h.2.1.1
  have happ := h.2.1.append hs ht bs (s.fieldValue w bs)
  obtain ⟨c, d, rfl, -, -⟩ := State.sameObservable_iff.mp h
  unfold appendField
  dsimp only
  rw [← hlen] at happ ⊢
  exact Answer.sameObservable_ite (fun _ => h.raise _) fun _ =>
    Answer.sameObservable_ite (fun _ => h.raise _) fun _ =>
      ((h.setSrc happ).setRes0 _).complete

end

theorem execBuild_sameObservable {s t : State} (h : s.sameObservable t)
    (hs : s.idx.bytes.wf = true) (ht : t.idx.bytes.wf = true) (rbs rss : Nat) :
    Answer.sameObservable (execBuild rbs rss s) (execBuild rbs rss t) := by
  have hlen : s.src.len = t.src.len := h.2.1.1
  obtain ⟨c, d, rfl, -, -⟩ := State.sameObservable_iff.mp h
  unfold execBuild
  dsimp only
  rw [← hlen]
  exact Answer.sameObservable_ite (fun _ => h.raise _) fun _ =>
    Answer.sameObservable_ite (fun _ => h.raise _) fun _ =>
      (h.commitIndex rfl hs ht).complete

/-- No command observes a bit at or past a length. -/
theorem exec_sameObservable (i : Instr) {s t : State} (hs : s.Inv) (ht : t.Inv)
    (h : s.sameObservable t) : Answer.sameObservable (exec i s) (exec i t) := by
  obtain ⟨⟨hsrc, -⟩, ⟨hidx, -⟩, -, hind, -⟩ := hs
  obtain ⟨⟨hsrc', -⟩, ⟨hidx', -⟩, -⟩ := ht
  cases i with
  | new => exact execNew_sameObservable h hsrc hsrc'
  | get8 bs sel | get16 bs sel | get32 bs sel | get64 bs sel =>
    exact getField_sameObservable h _ bs sel
  | set8 bs | set16 bs | set32 bs | set64 bs => exact setField_sameObservable h hsrc hsrc' _ bs
  | append8 bs | append16 bs | append32 bs | append64 bs =>
    exact appendField_sameObservable h hsrc hsrc' _ bs
  | length sel => exact execLength_sameObservable h sel
  | build rbs rss => exact execBuild_sameObservable h hidx hidx' rbs rss
  | rank0 => exact rankQuery_sameObservable h hind fun i r => i - r
  | rank1 => exact rankQuery_sameObservable h hind fun _ r => r
  | choose => exact execChoose_sameObservable h
  | floorlog2 => exact execFloorlog2_sameObservable h
  | popcount wb => exact execPopcount_sameObservable h wb
  | encode wb => exact execEncode_sameObservable h wb
  | decode wb => exact execDecode_sameObservable h wb

/-! ### The engine and the host -/

theorem State.sameObservable_ite {p : Prop} [Decidable p] {a b a' b' : State}
    (ha : a.sameObservable a') (hb : b.sameObservable b') :
    (if p then a else b).sameObservable (if p then a' else b') := by
  split
  · exact ha
  · exact hb

theorem runCommand_sameObservable {s t : State} (hs : s.Inv) (ht : t.Inv)
    (h : s.sameObservable t) : Answer.sameObservable (runCommand s) (runCommand t) := by
  unfold runCommand State.commandWord
  rw [h.cmd_eq]
  split
  · exact h.raise .illegalCommand
  next i _ => exact exec_sameObservable i hs ht h

theorem engineTurn_sameObservable {s t : State} (hs : s.Inv) (ht : t.Inv)
    (h : s.sameObservable t) : Answer.sameObservable (engineTurn s) (engineTurn t) := by
  unfold engineTurn
  rw [h.status_eq]
  exact Answer.sameObservable_ite (fun _ => runCommand_sameObservable hs ht h) fun _ => h

section
variable {s t : State} (h : s.sameObservable t)
include h

theorem hostRead_sameObservable (r : WindowReg) :
    (hostRead r s).sameObservable (hostRead r t) := by
  obtain ⟨c, d, rfl, -, -⟩ := State.sameObservable_iff.mp h
  cases r
  case res0 | res1 | idxN | idxGeom =>
    exact State.sameObservable_ite h.answerFree (h.answerRead _)
  all_goals exact h.answerRead _

theorem hostWrite_sameObservable (r : WindowReg) (v : Word) :
    (hostWrite r v s).sameObservable (hostWrite r v t) := by
  obtain ⟨c, d, rfl, -, -⟩ := State.sameObservable_iff.mp h
  cases r
  case ctrl => exact State.sameObservable_ite h.resetBlock h
  case cmd =>
    exact State.sameObservable_ite h.dropWrite
      (h.map (f := fun u => { u with cmd := v, status := u.status.accept })
        (fun _ _ _ => rfl) rfl rfl)
  case arg0 =>
    exact State.sameObservable_ite h.dropWrite
      (h.map (f := fun u => { u with arg0 := v }) (fun _ _ _ => rfl) rfl rfl)
  case arg1 =>
    exact State.sameObservable_ite h.dropWrite
      (h.map (f := fun u => { u with arg1 := v }) (fun _ _ _ => rfl) rfl rfl)
  all_goals exact h

theorem hostAccess_sameObservable (a : HostAccess) :
    Answer.sameObservable (hostAccess a s) (hostAccess a t) := by
  unfold hostAccess
  rw [h.params_eq]
  split
  · rfl
  · split
    · exact hostRead_sameObservable h _
    · exact hostWrite_sameObservable h _ _

end

/-- Settles O58, by the next event: a turn of the engine, where the invariant bounds what a command
reads, a host access, which reads no container, or a reset. -/
theorem unspecifiedBitsAreNeverObserved : Obligations.UnspecifiedBitsAreNeverObserved := by
  unfold Obligations.UnspecifiedBitsAreNeverObserved
  intro s t hs ht h
  have hrest (rest : List Event) :
      State.sameObservable { s with agenda := rest } { t with agenda := rest } :=
    h.map (f := fun u => { u with agenda := rest }) (fun _ _ _ => rfl) rfl rfl
  unfold step
  rw [h.agenda_eq]
  split
  · exact engineTurn_sameObservable hs ht h
  next a rest _ => exact hostAccess_sameObservable (hrest rest) a
  next rest _ => exact engineTurn_sameObservable hs ht (hrest rest)
  next rest _ => exact (hrest rest).resetBlock

end Sys2Proof.Machine
end

-- ==== What commands and steps leave alone (rules R20, R23, R25, R33, R50, R212) ====
section
/-! The frames of the commands, read off the cases of `exec`, and what a step does to STATUS. -/

namespace Sys2Proof.Machine

/-- Settles O50, by the cases of a command: an error is the latch, and no success writes the error
fields. -/
theorem everyCommandEnds : Obligations.EveryCommandEnds := by
  unfold Obligations.EveryCommandEnds
  intro i s
  rcases exec_cases i s with ⟨e, hx⟩ | ⟨v, hx⟩ | ⟨v, v', wb, -, hx⟩ | ⟨-, -, hx⟩ |
    ⟨w, bs, -, -, -, hx⟩ | ⟨w, bs, -, -, -, hx⟩ | ⟨rbs, rss, -, -, -, hx⟩
  case inl => exact ⟨_, hx, rfl, .inl ⟨e, rfl⟩⟩
  all_goals exact ⟨_, hx, rfl, .inr ⟨rfl, rfl, rfl⟩⟩

/-- Settles O51, by the cases of a command: none of their updates writes one of these fields. -/
theorem commandsKeepCmdAndOperands : Obligations.CommandsKeepCmdAndOperands := by
  unfold Obligations.CommandsKeepCmdAndOperands
  intro i s t h
  rcases exec_cases i s with ⟨e, hx⟩ | ⟨v, hx⟩ | ⟨v, v', wb, -, hx⟩ | ⟨-, -, hx⟩ |
    ⟨w, bs, -, -, -, hx⟩ | ⟨w, bs, -, -, -, hx⟩ | ⟨rbs, rss, -, -, -, hx⟩
  all_goals
    obtain rfl := Host.Outcome.next.inj (hx.symm.trans h)
    simp

/-- A command other than BUILD leaves IDX and what describes it. -/
theorem exec_index_frame {i : Instr} {s t : State} (h : exec i s = .next t)
    (hi : ∀ rbs rss, i ≠ .build rbs rss) :
    t.idx = s.idx ∧ t.idxN = s.idxN ∧ t.idxGeom = s.idxGeom ∧
      t.status.built = s.status.built := by
  rcases exec_cases i s with ⟨e, hx⟩ | ⟨v, hx⟩ | ⟨v, v', wb, -, hx⟩ | ⟨-, -, hx⟩ |
    ⟨w, bs, -, -, -, hx⟩ | ⟨w, bs, -, -, -, hx⟩ | ⟨rbs, rss, hb, -, -, -⟩
  case inr.inr.inr.inr.inr.inr => exact absurd hb (hi rbs rss)
  all_goals
    obtain rfl := Host.Outcome.next.inj (hx.symm.trans h)
    simp

theorem exists_setRow {i : Instr} {bs : Nat}
    (h : i = .set8 bs ∨ i = .set16 bs ∨ i = .set32 bs ∨ i = .set64 bs) :
    ∃ r ∈ setRows, i = r.2.2 bs := by
  simpa [setRows] using h

theorem exists_appendRow {i : Instr} {bs : Nat}
    (h : i = .append8 bs ∨ i = .append16 bs ∨ i = .append32 bs ∨ i = .append64 bs) :
    ∃ r ∈ appendRows, i = r.2.2 bs := by
  simpa [appendRows] using h

/-- A command other than NEW, SET and APPEND leaves SRC. -/
theorem exec_src_frame {i : Instr} {s t : State} (h : exec i s = .next t) (hnew : i ≠ .new)
    (hset : ∀ bs, ∀ r ∈ setRows, i ≠ r.2.2 bs) (happ : ∀ bs, ∀ r ∈ appendRows, i ≠ r.2.2 bs) :
    t.src = s.src := by
  rcases exec_cases i s with ⟨e, hx⟩ | ⟨v, hx⟩ | ⟨v, v', wb, -, hx⟩ | ⟨hi, -⟩ |
    ⟨w, bs, hi, -⟩ | ⟨w, bs, hi, -⟩ | ⟨rbs, rss, -, -, -, hx⟩
  case inr.inr.inr.inl => exact absurd hi hnew
  case inr.inr.inr.inr.inl =>
    obtain ⟨r, hr, he⟩ := exists_setRow hi
    exact absurd he (hset bs r hr)
  case inr.inr.inr.inr.inr.inl =>
    obtain ⟨r, hr, he⟩ := exists_appendRow hi
    exact absurd he (happ bs r hr)
  all_goals
    obtain rfl := Host.Outcome.next.inj (hx.symm.trans h)
    simp

/-- Settles O53, from the two frames. -/
theorem onlyBuildChangesTheIndex : Obligations.OnlyBuildChangesTheIndex := by
  unfold Obligations.OnlyBuildChangesTheIndex
  intro i s t h
  exact ⟨exec_index_frame h, exec_src_frame h⟩

/-! ### STATUS -/

/-- A command sets ERRV or leaves it with ERRCODE, leaves OVR, and never clears BUILT. -/
theorem exec_status {i : Instr} {s t : State} (h : exec i s = .next t) :
    (t.status.errv = true ∨
      t.status.errv = s.status.errv ∧ t.status.errcode = s.status.errcode) ∧
    t.status.ovr = s.status.ovr ∧ (s.status.built = true → t.status.built = true) := by
  rcases exec_cases i s with ⟨e, hx⟩ | ⟨v, hx⟩ | ⟨v, v', wb, -, hx⟩ | ⟨-, -, hx⟩ |
    ⟨w, bs, -, -, -, hx⟩ | ⟨w, bs, -, -, -, hx⟩ | ⟨rbs, rss, -, -, -, hx⟩
  all_goals
    obtain rfl := Host.Outcome.next.inj (hx.symm.trans h)
    simp

/-- The engine's step does to STATUS what its command does, or latches ILLEGAL_COMMAND; only a BUILD
changes BUILT. -/
theorem runCommand_status {s t : State} (h : runCommand s = .next t) :
    (t.status.errv = true ∨
      t.status.errv = s.status.errv ∧ t.status.errcode = s.status.errcode) ∧
    t.status.ovr = s.status.ovr ∧ (s.status.built = true → t.status.built = true) ∧
    (t.status.built ≠ s.status.built → ∃ rbs rss, decode s.cmd = some (.build rbs rss)) := by
  rcases runCommand_cases s with ⟨-, hx⟩ | ⟨i, hd, hx⟩
  · obtain rfl := Host.Outcome.next.inj (hx.symm.trans h)
    simp
  · have hx := hx.symm.trans h
    obtain ⟨herr, hovr, hbuilt⟩ := exec_status hx
    refine ⟨herr, hovr, hbuilt, fun hne => ?_⟩
    by_contra hno
    exact hne (exec_index_frame hx fun rbs rss hi => hno ⟨rbs, rss, hi ▸ hd⟩).2.2.2

/-- Settles O55, by the cases of a step. The engine's step starts with BUSY = 1, so with ERRV = 0;
every other step but a reset writes BUSY and OVR alone. -/
theorem statusBitsClearOnResetOnly : Obligations.StatusBitsClearOnResetOnly := by
  unfold Obligations.StatusBitsClearOnResetOnly
  intro s t hlegal hreset h
  rcases step_cases h with ⟨hturn, hrun⟩ | ⟨hr, -⟩ | ⟨v, n, rfl⟩ | rfl | ⟨-, -, v, rfl⟩ |
    ⟨-, v, rfl | rfl⟩
  case inl =>
    have herrv : s.status.errv ≠ true := fun he =>
      Bool.false_ne_true ((hlegal.2.2 he).symm.trans hturn.1)
    obtain ⟨herr, hovr, hbuilt, hbuild⟩ := runCommand_status hrun
    refine ⟨fun he => absurd he herrv, fun _ hne => ?_, fun ho => hovr.trans ho, hbuilt,
      fun hb => ⟨hturn, hbuild hb⟩⟩
    exact herr.resolve_right fun hsame => hne hsame.2
  case inr.inl => exact absurd hr hreset
  all_goals simp

end Sys2Proof.Machine
end

-- ==== The register window (rules R21 to R30, R252, R253) ====
section
/-! A 64-bit access at an offset of the window reads or writes the register there; each statement is
then what `hostRead` or `hostWrite` does at its offsets. -/

namespace Sys2Proof.Machine

section
variable {s : State} {rest : List Event} {off : Nat}

theorem step_read (h : s.facesAccess off .read rest) (hoff : off ≤ 0xFF) (h8 : off % 8 = 0) :
    step s = .next (hostRead (WindowReg.at off) { s with agenda := rest }) := by
  rw [State.facesAccess] at h
  simp only [step, h, hostAccess, windowOffset_self _ hoff h8]

theorem step_write {v : Word} (h : s.facesAccess off (.write v) rest) (hoff : off ≤ 0xFF)
    (h8 : off % 8 = 0) :
    step s = .next (hostWrite (WindowReg.at off) v { s with agenda := rest }) := by
  rw [State.facesAccess] at h
  simp only [step, h, hostAccess, windowOffset_self _ hoff h8]

end

/-- With BUSY = 0 a result register answers its value (rules R62, R253). -/
theorem State.answerResult_idle {s : State} (h : s.status.busy = false) (v : Word) :
    s.answerResult v = s.answerRead v := by
  rw [State.answerResult, h]; rfl

/-- Settles O10, register by register. -/
theorem idleReadsAnswerTheRegister : Obligations.IdleReadsAnswerTheRegister := by
  unfold Obligations.IdleReadsAnswerTheRegister
  intro s rest hb r hr h
  have hres (v : Word) := State.answerResult_idle (s := { s with agenda := rest }) hb v
  simp only [List.mem_cons, List.not_mem_nil, or_false] at hr
  rcases hr with rfl | rfl | rfl | rfl | rfl | rfl | rfl | rfl | rfl | rfl
  all_goals
    rw [step_read h (by simp) (by simp)]
    simp [WindowReg.at, hostRead, hres, State.answerRead]

/-! ### STATUS -/

/-- The fields of the STATUS word, as slices of its number (rule R23). -/
theorem Status.bits_word (st : Status) :
    bits st.word 0 0 = st.busy.toNat ∧ bits st.word 1 1 = st.errv.toNat ∧
      bits st.word 2 2 = st.ovr.toNat ∧ bits st.word 3 3 = st.built.toNat ∧
      bits st.word 7 4 = 0 ∧ bits st.word 11 8 = st.errcode.toNat ∧ bits st.word 63 12 = 0 := by
  have hbusy := Bool.toNat_lt st.busy
  have herrv := Bool.toNat_lt st.errv
  have hovr := Bool.toNat_lt st.ovr
  have hbuilt := Bool.toNat_lt st.built
  have hcode := st.errcode.isLt
  simp only [bits, Status.word, BitVec.toNat_ofNat]
  omega

theorem getLsbD_of_bits {w : Word} {k : Nat} {b : Bool} (h : bits w k k = b.toNat) :
    w.getLsbD k = b := by
  rw [bits, Nat.add_sub_cancel_left, Nat.pow_one] at h
  rw [BitVec.getLsbD, Nat.testBit_eq_decide_div_mod_eq, h]
  cases b <;> rfl

/-- Settles O11: a STATUS read answers `Status.word`. -/
theorem statusReadsItsFields : Obligations.StatusReadsItsFields := by
  unfold Obligations.StatusReadsItsFields
  intro s rest h
  obtain ⟨hbusy, herrv, hovr, hbuilt, hlow, hcode, hhigh⟩ := s.status.bits_word
  exact ⟨s.status.word, step_read h (by decide) (by decide), getLsbD_of_bits hbusy,
    getLsbD_of_bits herrv, getLsbD_of_bits hovr, getLsbD_of_bits hbuilt,
    (extractLsb_eq_zero_iff _ (by decide)).mpr hlow,
    BitVec.eq_of_toNat_eq ((toNat_extractLsb _ (by decide)).trans hcode),
    (extractLsb_eq_zero_iff _ (by decide)).mpr hhigh⟩

/-! ### Writes -/

/-- Settles O14: the reserved offsets are no register's, and the read-only registers have no
write. -/
theorem reservedAndReadOnlyOffsets : Obligations.ReservedAndReadOnlyOffsets := by
  unfold Obligations.ReservedAndReadOnlyOffsets
  intro s rest off v
  refine ⟨fun hlo hhi h8 h => ?_, ?_⟩
  · rw [step_read h (by omega) h8, WindowReg.at_reserved hlo]; rfl
  · rintro (⟨hlo, hhi, h8⟩ | hro) h
    · rw [step_write h (by omega) h8, WindowReg.at_reserved hlo]; rfl
    · simp only [List.mem_cons, List.not_mem_nil, or_false] at hro
      rcases hro with rfl | rfl | rfl | rfl | rfl | rfl | rfl <;>
        exact step_write h (by decide) (by decide)

theorem writeCmd_dropped {s : State} (h : s.status.busy = true ∨ s.status.errv = true) (v : Word) :
    writeCmd v s = s.dropWrite :=
  if_pos (Bool.or_eq_true_iff.mpr h)

theorem writeArg0_dropped {s : State} (h : s.status.busy = true) (v : Word) :
    writeArg0 v s = s.dropWrite := if_pos h

theorem writeArg1_dropped {s : State} (h : s.status.busy = true) (v : Word) :
    writeArg1 v s = s.dropWrite := if_pos h

/-- Settles O16, offset by offset. -/
theorem droppedWritesSetOvr : Obligations.DroppedWritesSetOvr := by
  unfold Obligations.DroppedWritesSetOvr
  intro s rest v off hcond h
  rcases hcond with ⟨hoff, hb⟩ | ⟨rfl, he⟩
  · simp only [List.mem_cons, List.not_mem_nil, or_false] at hoff
    rcases hoff with rfl | rfl | rfl <;> rw [step_write h (by decide) (by decide)]
    · exact congrArg _ (writeCmd_dropped (s := { s with agenda := rest }) (.inl hb) v)
    · exact congrArg _ (writeArg0_dropped (s := { s with agenda := rest }) hb v)
    · exact congrArg _ (writeArg1_dropped (s := { s with agenda := rest }) hb v)
  · rw [step_write h (by decide) (by decide)]
    exact congrArg _ (writeCmd_dropped (s := { s with agenda := rest }) (.inr he) v)

theorem writeArg0_taken {s : State} (h : s.status.busy = false) (v : Word) :
    writeArg0 v s = { s with arg0 := v } := if_neg (Bool.eq_false_iff.mp h)

theorem writeArg1_taken {s : State} (h : s.status.busy = false) (v : Word) :
    writeArg1 v s = { s with arg1 := v } := if_neg (Bool.eq_false_iff.mp h)

/-- Settles O17: with BUSY = 0 the write is taken, whatever ERRV is. -/
theorem operandWriteIsTaken : Obligations.OperandWriteIsTaken := by
  unfold Obligations.OperandWriteIsTaken
  intro s rest v hb
  refine ⟨fun h => ?_, fun h => ?_⟩ <;> rw [step_write h (by decide) (by decide)]
  · exact congrArg _ (writeArg0_taken (s := { s with agenda := rest }) hb v)
  · exact congrArg _ (writeArg1_taken (s := { s with agenda := rest }) hb v)

end Sys2Proof.Machine
end

-- ==== Bytes, words and access widths (rules R51, R53, R55 to R57) ====
section
/-! A container read a byte at a time, the field commands at the four widths, and which host accesses
are answered. -/

namespace Sys2Proof.Machine

/-! ### Words as bytes (rules R55, R56) -/

/-- The bits of byte a are those from position 8a on (rule R55). -/
theorem Container.bit_byte (c : Container) (a : Nat) {k : Nat} (hk : k < 8) :
    c.bit (8 * a + k) = (c.bytes.readByte a).getLsbD k := by
  rw [Container.bit, show (8 * a + k) / 8 = a by omega, show (8 * a + k) % 8 = k by omega]

/-- MemRead of a whole byte. -/
theorem Container.memRead_byte (c : Container) (a : Nat) :
    c.memRead (8 * a) 8 = (c.bytes.readByte a).toNat := by
  refine Nat.eq_of_testBit_eq fun k => ?_
  rw [Container.testBit_memRead, BitVec.testBit_toNat]
  by_cases hk : k < 8
  · rw [c.bit_byte a hk, decide_eq_true hk, Bool.true_and]
  · rw [decide_eq_false hk, Bool.false_and, BitVec.getLsbD_of_ge _ _ (Nat.not_lt.mp hk)]

/-- MemRead of two adjoining windows, the lower one lowest. -/
theorem Container.memRead_add (c : Container) (p n m : Nat) :
    c.memRead p (n + m) = c.memRead p n + 2 ^ n * c.memRead (p + n) m := by
  induction n generalizing p with
  | zero => simp [Container.memRead]
  | succ n ih =>
    rw [Nat.succ_add, Container.memRead, Container.memRead, ih, Nat.pow_succ,
      show p + 1 + n = p + (n + 1) by omega]
    ring

/-- MemRead of m bytes from byte a on, lowest first. -/
theorem Container.memRead_bytes (c : Container) (a m : Nat) :
    c.memRead (8 * a) (8 * m)
      = ∑ j ∈ Finset.range m, (c.bytes.readByte (a + j)).toNat * 2 ^ (8 * j) := by
  induction m with
  | zero => rfl
  | succ m ih =>
    rw [Finset.sum_range_succ, Nat.mul_succ, Container.memRead_add, ih, ← Nat.mul_add,
      Container.memRead_byte, Nat.mul_comm (2 ^ _)]

/-- Settles O32: word k starts at byte k · W / 8, and MemRead goes byte by byte. -/
theorem wordsAreLittleEndian : Obligations.WordsAreLittleEndian := by
  unfold Obligations.WordsAreLittleEndian
  intro c k m _
  rw [Nat.mul_left_comm, Container.memRead_bytes]

/-! ### The four widths of GET and SET (rules R57, R121, R130) -/

theorem exec_getRow {r : WidthRow (Nat → Sel → Instr)} (hr : r ∈ getRows) (bs : Nat) (sel : Sel)
    (s : State) : exec (r.2.2 bs sel) s = getField r.1 bs sel s := by
  simp only [getRows, List.mem_cons, List.not_mem_nil, or_false] at hr
  rcases hr with rfl | rfl | rfl | rfl <;> rfl

theorem exec_setRow {r : WidthRow (Nat → Instr)} (hr : r ∈ setRows) (bs : Nat) (s : State) :
    exec (r.2.2 bs) s = setField r.1 bs s := by
  simp only [setRows, List.mem_cons, List.not_mem_nil, or_false] at hr
  rcases hr with rfl | rfl | rfl | rfl <;> rfl

/-- GET uses its width in the bitsize check alone. -/
theorem getField_congr_width {w w' bs : Nat} (h1 : 1 ≤ bs) (hw : bs ≤ w) (hw' : bs ≤ w') (sel : Sel)
    (s : State) : getField w bs sel s = getField w' bs sel s := by
  rcases Nat.lt_or_ge (s.container sel).len.toNat (s.arg0.toNat + bs) with h | h
  · rw [getField_range h1 hw h, getField_range h1 hw' h]
  · rw [getField_ok h1 hw h, getField_ok h1 hw' h]

/-- A GET after a SET of the same window reads the low bits of ARG1, whatever the two widths are. -/
theorem setField_then_getField {w w' bs : Nat} {s : State} (h1 : 1 ≤ bs) (hw : bs ≤ w)
    (hw' : bs ≤ w') (hlen : s.arg0.toNat + bs ≤ s.src.len.toNat) (hwf : s.src.bytes.wf = true) :
    ∃ t, setField w bs s = .next t ∧
      getField w' bs .src t = .next (t.setRes0 (s.arg1.toNat % 2 ^ bs)).complete := by
  refine ⟨_, setField_ok h1 hw hlen, ?_⟩
  rw [getField_ok h1 hw' (by simpa [State.container] using hlen)]
  simp [State.container, Container.memRead_memWrite_same hwf]

/-- Settles O31: the widths differ in the bitsize check alone, and 64 bits from position 8k on are
eight bytes. -/
theorem widthsSeeTheSameBits : Obligations.WidthsSeeTheSameBits := by
  unfold Obligations.WidthsSeeTheSameBits
  refine ⟨fun r hr r' hr' bs sel s h1 hw hw' => ?_,
    fun r hr r' hr' bs s h1 hw hw' hlen hwf => ?_, fun sel k s hk hlen => ?_⟩
  · rw [exec_getRow hr, exec_getRow hr', getField_congr_width h1 hw hw']
  · obtain ⟨t, hset, hget⟩ := setField_then_getField h1 hw hw' hlen hwf
    exact ⟨t, _, (exec_setRow hr bs s).trans hset, (exec_getRow hr' bs .src t).trans hget, rfl⟩
  · rw [← Container.memRead_bytes, ← hk]
    exact getField_ok (by decide) le_rfl (hk ▸ hlen)

/-! ### Host accesses (rules R51, R53) -/

section
variable {s : State} {a : HostAccess} {rest : List Event}

theorem step_host (h : s.agenda = .host a :: rest) :
    step s = hostAccess a { s with agenda := rest } := by
  rw [step, h]

theorem hostAccess_refused (h : windowOffset s.params.base a = none) :
    hostAccess a s = .refused .hostAccessOutsideInterface := by
  rw [hostAccess, h]

theorem hostAccess_read {off : Nat} (hop : a.op = .read)
    (h : windowOffset s.params.base a = some off) :
    hostAccess a s = .next (hostRead (WindowReg.at off) s) := by
  simp only [hostAccess, h, hop]

theorem hostAccess_write {off : Nat} {v : Word} (hop : a.op = .write v)
    (h : windowOffset s.params.base a = some off) :
    hostAccess a s = .next (hostWrite (WindowReg.at off) v s) := by
  simp only [hostAccess, h, hop]

end

/-- The accesses of rule R51 are those that reach an offset of the window. -/
theorem exists_windowOffset_iff {base : Nat} {a : HostAccess} :
    (∃ off, windowOffset base a = some off) ↔
      a.size = 8 ∧ ∃ k, k < 0x20 ∧ a.addr = base + 8 * k := by
  constructor
  · rintro ⟨off, hoff⟩
    obtain ⟨hsize, haddr, hle, h8⟩ := windowOffset_eq_some hoff
    exact ⟨hsize, off / 8, by omega, by omega⟩
  · obtain ⟨addr, size, op⟩ := a
    rintro ⟨rfl, k, hk, rfl⟩
    exact ⟨8 * k, windowOffset_self op (by omega) (by omega)⟩

/-- Settles O13: an answered read is `hostRead` at its register. -/
theorem readsHaveNoSideEffect : Obligations.ReadsHaveNoSideEffect := by
  unfold Obligations.ReadsHaveNoSideEffect
  intro s t addr size rest ha h
  rw [step_host ha] at h
  cases hoff : windowOffset s.params.base ⟨addr, size, .read⟩ with
  | none => cases (hostAccess_refused (s := { s with agenda := rest }) hoff).symm.trans h
  | some off =>
    cases (hostAccess_read (s := { s with agenda := rest }) rfl hoff).symm.trans h
    exact hostRead_frame _ _

/-- Settles O20: an access is refused exactly when it reaches no offset of the window. -/
theorem outsideAccessIsRefused : Obligations.OutsideAccessIsRefused := by
  unfold Obligations.OutsideAccessIsRefused
  intro s a rest ha
  rw [step_host ha, ← exists_windowOffset_iff]
  refine ⟨fun hout => ?_, fun ⟨off, hoff⟩ => ?_⟩
  · exact hostAccess_refused (Option.eq_none_iff_forall_ne_some.mpr fun off h => hout ⟨off, h⟩)
  · cases hop : a.op with
    | read => exact ⟨_, hostAccess_read hop hoff⟩
    | write v => exact ⟨_, hostAccess_write hop hoff⟩

end Sys2Proof.Machine
end

-- ==== Words and commands (rules R70 to R79) ====
section
/-! The fields of each format are read back from its word, and a word is put together again from its
fields; the two halves of "decode and encode are inverse" are these facts, opcode by opcode. -/

namespace Sys2Proof

/-! ### From a command to its word and back -/

theorem selOfBit_toBit (sel : Sel) : selOfBit sel.toBit = sel := by cases sel <;> rfl

theorem Sel.toBit_lt (sel : Sel) : sel.toBit < 2 := by cases sel <;> decide

/-- The fields of a format C word (rule R72). -/
theorem bits_formatC {op bs wc sel : Nat} (hop : op < 256) (hbs : bs < 256) (hwc : wc < 4)
    (hsel : sel < 2) :
    bits (formatC op bs wc sel) 63 32 = 0 ∧ bits (formatC op bs wc sel) 7 0 = op ∧
      bits (formatC op bs wc sel) 15 8 = bs ∧ bits (formatC op bs wc sel) 17 16 = wc ∧
      bits (formatC op bs wc sel) 18 18 = sel ∧ bits (formatC op bs wc sel) 31 19 = 0 ∧
      bits (formatC op bs wc sel) 31 18 = sel ∧
      bits (formatC op bs wc sel) 17 8 = bs + wc * 256 := by
  have h := bits_of_lt (n := op + bs * 2 ^ 8 + wc * 2 ^ 16 + sel * 2 ^ 18) (by omega)
  unfold formatC
  omega

/-- The fields of a format B word (rule R73). -/
theorem bits_formatB {op rbs rss : Nat} (hop : op < 256) (hrbs : rbs < 256) (hrss : rss < 256) :
    bits (formatB op rbs rss) 63 32 = 0 ∧ bits (formatB op rbs rss) 7 0 = op ∧
      bits (formatB op rbs rss) 15 8 = rbs ∧ bits (formatB op rbs rss) 23 16 = rss ∧
      bits (formatB op rbs rss) 31 24 = 0 := by
  have h := bits_of_lt (n := op + rbs * 2 ^ 8 + rss * 2 ^ 16) (by omega)
  unfold formatB
  omega

/-- The fields of a format P word (rule R75). -/
theorem bits_formatP {op wb : Nat} (hop : op < 256) (hwb : wb < 256) :
    bits (formatP op wb) 63 32 = 0 ∧ bits (formatP op wb) 7 0 = op ∧
      bits (formatP op wb) 15 8 = wb ∧ bits (formatP op wb) 31 16 = 0 ∧
      bits (formatP op wb) 31 8 = wb := by
  have h := bits_of_lt (n := op + wb * 2 ^ 8) (by omega)
  unfold formatP
  omega

section
variable {bs : Nat} (hbs : fitsByte bs = true) {wc : Nat} (hwc : wc < 4)
include hbs hwc

theorem decode_formatC_get (sel : Sel) :
    decode (formatC 0x02 bs wc sel.toBit) = some (getOfWidthCode wc bs sel) := by
  obtain ⟨hhi, hop, hb, hw, hs, h19, -, -⟩ :=
    bits_formatC (op := 0x02) (by decide) (of_decide_eq_true hbs) hwc sel.toBit_lt
  rw [decode_get hhi hop h19, hb, hw, hs, selOfBit_toBit]

theorem decode_formatC_set :
    decode (formatC 0x03 bs wc 0) = some (setOfWidthCode wc bs) := by
  obtain ⟨hhi, hop, hb, hw, -, -, h18, -⟩ :=
    bits_formatC (op := 0x03) (sel := 0) (by decide) (of_decide_eq_true hbs) hwc (by decide)
  rw [decode_set hhi hop h18, hb, hw]

theorem decode_formatC_append :
    decode (formatC 0x04 bs wc 0) = some (appendOfWidthCode wc bs) := by
  obtain ⟨hhi, hop, hb, hw, -, -, h18, -⟩ :=
    bits_formatC (op := 0x04) (sel := 0) (by decide) (of_decide_eq_true hbs) hwc (by decide)
  rw [decode_append hhi hop h18, hb, hw]

end

theorem decode_formatC_length (sel : Sel) :
    decode (formatC 0x05 0 0 sel.toBit) = some (.length sel) := by
  obtain ⟨hhi, hop, -, -, hs, h19, -, h8⟩ := bits_formatC (op := 0x05) (bs := 0) (wc := 0)
    (by decide) (by decide) (by decide) sel.toBit_lt
  rw [decode_length hhi hop h19 h8, hs, selOfBit_toBit]

theorem decode_formatB_build {rbs rss : Nat} (hrbs : fitsByte rbs = true)
    (hrss : fitsByte rss = true) : decode (formatB 0x10 rbs rss) = some (.build rbs rss) := by
  obtain ⟨hhi, hop, hb, hs, h24⟩ := bits_formatB (op := 0x10) (by decide)
    (of_decide_eq_true hrbs) (of_decide_eq_true hrss)
  rw [decode_build hhi hop h24, hb, hs]

section
variable {wb : Nat} (hwb : fitsByte wb = true)
include hwb

theorem decode_formatP_popcount : decode (formatP 0x22 wb) = some (.popcount wb) := by
  obtain ⟨hhi, hop, hb, h16, -⟩ := bits_formatP (op := 0x22) (by decide) (of_decide_eq_true hwb)
  rw [decode_popcount hhi hop h16, hb]

theorem decode_formatP_encode : decode (formatP 0x23 wb) = some (.encode wb) := by
  obtain ⟨hhi, hop, hb, h16, -⟩ := bits_formatP (op := 0x23) (by decide) (of_decide_eq_true hwb)
  rw [decode_encode hhi hop h16, hb]

theorem decode_formatP_decode : decode (formatP 0x24 wb) = some (.decode wb) := by
  obtain ⟨hhi, hop, hb, h16, -⟩ := bits_formatP (op := 0x24) (by decide) (of_decide_eq_true hwb)
  rw [decode_decode hhi hop h16, hb]

end

/-- Settles O1, command by command: the fields of its word are the fields it was made from. The
commands without fields have one word each. -/
theorem decodeReadsBackEncode : Obligations.DecodeReadsBackEncode := by
  unfold Obligations.DecodeReadsBackEncode
  intro i h
  cases i with
  | new | rank0 | rank1 | choose | floorlog2 => decide
  | get8 bs sel => exact decode_formatC_get h (wc := 0) (by decide) sel
  | get16 bs sel => exact decode_formatC_get h (wc := 1) (by decide) sel
  | get32 bs sel => exact decode_formatC_get h (wc := 2) (by decide) sel
  | get64 bs sel => exact decode_formatC_get h (wc := 3) (by decide) sel
  | set8 bs => exact decode_formatC_set h (wc := 0) (by decide)
  | set16 bs => exact decode_formatC_set h (wc := 1) (by decide)
  | set32 bs => exact decode_formatC_set h (wc := 2) (by decide)
  | set64 bs => exact decode_formatC_set h (wc := 3) (by decide)
  | append8 bs => exact decode_formatC_append h (wc := 0) (by decide)
  | append16 bs => exact decode_formatC_append h (wc := 1) (by decide)
  | append32 bs => exact decode_formatC_append h (wc := 2) (by decide)
  | append64 bs => exact decode_formatC_append h (wc := 3) (by decide)
  | length sel => exact decode_formatC_length sel
  | build rbs rss =>
    obtain ⟨hrbs, hrss⟩ := Bool.and_eq_true_iff.mp h
    exact decode_formatB_build hrbs hrss
  | popcount wb => exact decode_formatP_popcount h
  | encode wb => exact decode_formatP_encode h
  | decode wb => exact decode_formatP_decode h

/-! ### From a word to its command and back -/

theorem toBit_selOfBit {v : Nat} (h : v < 2) : (selOfBit v).toBit = v := by
  interval_cases v <;> rfl

theorem encode_getOfWidthCode {wc : Nat} (h : wc < 4) (bs : Nat) (sel : Sel) :
    encode (getOfWidthCode wc bs sel) = formatC 0x02 bs wc sel.toBit := by
  interval_cases wc <;> rfl

theorem encode_setOfWidthCode {wc : Nat} (h : wc < 4) (bs : Nat) :
    encode (setOfWidthCode wc bs) = formatC 0x03 bs wc 0 := by
  interval_cases wc <;> rfl

theorem encode_appendOfWidthCode {wc : Nat} (h : wc < 4) (bs : Nat) :
    encode (appendOfWidthCode wc bs) = formatC 0x04 bs wc 0 := by
  interval_cases wc <;> rfl

/-- A part of a slice of zeros is zero. -/
theorem bits_eq_zero_of_le {w : Word} {hi lo hi' lo' : Nat} (h : bits w hi lo = 0) (hlo : lo ≤ lo')
    (hhi : hi' ≤ hi) : bits w hi' lo' = 0 := by
  refine Nat.zero_of_testBit_eq_false fun k => ?_
  have hz := congrArg (Nat.testBit · (lo' - lo + k)) h
  simp only [bits, Nat.testBit_mod_two_pow, Nat.testBit_div_two_pow, Nat.zero_testBit,
    Bool.and_eq_false_iff, decide_eq_false_iff_not] at hz ⊢
  rcases hz with hz | hz
  · exact .inl (by omega)
  · exact .inr (by rwa [show lo' - lo + k + lo = k + lo' by omega] at hz)

section
variable {w : Word} (h : bits w 63 32 = 0)
include h

/-- A word whose reserved upper half is 0 is its lower half (rule R70). -/
theorem toWord_of_bits_high {n : Nat} (hn : n = bits w 31 0) : toWord n = w := by
  apply BitVec.eq_of_toNat_eq
  have hw := w.isLt
  simp only [bits] at h hn
  rw [BitVec.toNat_ofNat]
  omega

/-- A word with no bit above SEL is the format C word of its fields (rule R72). -/
theorem formatC_bits (h19 : bits w 31 19 = 0) :
    formatC (bits w 7 0) (bits w 15 8) (bits w 17 16) (bits w 18 18) = w :=
  toWord_of_bits_high h (by simp only [bits] at *; omega)

/-- A word with no bit above RSS is the format B word of its fields (rule R73). -/
theorem formatB_bits (h24 : bits w 31 24 = 0) :
    formatB (bits w 7 0) (bits w 15 8) (bits w 23 16) = w :=
  toWord_of_bits_high h (by simp only [bits] at *; omega)

/-- A word with no bit above BV is the format Q word of its fields (rule R74). -/
theorem formatQ_bits (h9 : bits w 31 9 = 0) : formatQ (bits w 7 0) (bits w 8 8) = w :=
  toWord_of_bits_high h (by simp only [bits] at *; omega)

/-- A word with no bit above WB is the format P word of its fields (rule R75). -/
theorem formatP_bits (h16 : bits w 31 16 = 0) : formatP (bits w 7 0) (bits w 15 8) = w :=
  toWord_of_bits_high h (by simp only [bits] at *; omega)

/-- A word with nothing above the opcode is the format P word of WB = 0. -/
theorem formatP_zero_bits (h8 : bits w 31 8 = 0) : formatP (bits w 7 0) 0 = w := by
  have hw := formatP_bits h (bits_eq_zero_of_le h8 (by decide) le_rfl)
  rwa [bits_eq_zero_of_le h8 le_rfl (by decide)] at hw

end

theorem encode_of_decode {w : Word} {i : Instr} (hd : decode w = some i) : encode i = w := by
  have hwc : bits w 17 16 < 4 := bits_lt w 17 16
  have hsel := toBit_selOfBit (bits_lt w 18 18)
  have hbv : bits w 8 8 < 2 := bits_lt w 8 8
  obtain ⟨h, ⟨hop, h8, rfl⟩ | ⟨hop, h19, rfl⟩ | ⟨hop, h18, rfl⟩ | ⟨hop, h18, rfl⟩ |
    ⟨hop, h19, h8, rfl⟩ | ⟨hop, h24, rfl⟩ | ⟨hop, h9, rfl⟩ | ⟨hop, h8, rfl⟩ | ⟨hop, h8, rfl⟩ |
    ⟨hop, h16, rfl⟩ | ⟨hop, h16, rfl⟩ | ⟨hop, h16, rfl⟩⟩ := decode_cases hd
  · have hw := formatP_zero_bits h h8
    rwa [hop] at hw
  · have hw := formatC_bits h h19
    rwa [hop, ← hsel, ← encode_getOfWidthCode hwc] at hw
  · have hw := formatC_bits h (bits_eq_zero_of_le h18 (by decide) le_rfl)
    rwa [hop, bits_eq_zero_of_le h18 le_rfl (by decide), ← encode_setOfWidthCode hwc] at hw
  · have hw := formatC_bits h (bits_eq_zero_of_le h18 (by decide) le_rfl)
    rwa [hop, bits_eq_zero_of_le h18 le_rfl (by decide), ← encode_appendOfWidthCode hwc] at hw
  · have hw := formatC_bits h h19
    rwa [hop, bits_eq_zero_of_le h8 le_rfl (by decide), bits_eq_zero_of_le h8 (by decide) le_rfl,
      ← hsel] at hw
  · have hw := formatB_bits h h24
    rwa [hop] at hw
  · have hw := formatQ_bits h h9
    rw [hop] at hw
    split
    · rename_i hz; rwa [hz] at hw
    · rename_i hz; rwa [show bits w 8 8 = 1 by omega] at hw
  · have hw := formatP_zero_bits h h8
    rwa [hop] at hw
  · have hw := formatP_zero_bits h h8
    rwa [hop] at hw
  all_goals
    have hw := formatP_bits h h16
    rwa [hop] at hw

/-- Settles O2: the fields of a word that decodes are all there is of it. -/
theorem encodeReadsBackDecode : Obligations.EncodeReadsBackDecode := by
  unfold Obligations.EncodeReadsBackDecode
  intro w i hd
  exact ⟨wellFormed_of_decode hd, encode_of_decode hd⟩

/-! ### The opcode table (rule R78) -/

theorem encode_matches_tableRow {i : Instr} (h : i.wellFormed = true) :
    encode i &&& (tableRow i).mask = (tableRow i).pattern := by
  cases i with
  | new => exact Laws.TableRow.new h
  | get8 bs sel => exact Laws.TableRow.get8 bs sel h
  | get16 bs sel => exact Laws.TableRow.get16 bs sel h
  | get32 bs sel => exact Laws.TableRow.get32 bs sel h
  | get64 bs sel => exact Laws.TableRow.get64 bs sel h
  | set8 bs => exact Laws.TableRow.set8 bs h
  | set16 bs => exact Laws.TableRow.set16 bs h
  | set32 bs => exact Laws.TableRow.set32 bs h
  | set64 bs => exact Laws.TableRow.set64 bs h
  | append8 bs => exact Laws.TableRow.append8 bs h
  | append16 bs => exact Laws.TableRow.append16 bs h
  | append32 bs => exact Laws.TableRow.append32 bs h
  | append64 bs => exact Laws.TableRow.append64 bs h
  | length sel => exact Laws.TableRow.length sel h
  | build rbs rss => exact Laws.TableRow.build rbs rss h
  | rank0 => exact Laws.TableRow.rank0 h
  | rank1 => exact Laws.TableRow.rank1 h
  | choose => exact Laws.TableRow.choose h
  | floorlog2 => exact Laws.TableRow.floorlog2 h
  | popcount wb => exact Laws.TableRow.popcount wb h
  | encode wb => exact Laws.TableRow.encode wb h
  | decode wb => exact Laws.TableRow.decode wb h

/-- The 22 rows of the opcode table, one command of each. -/
def tableRows : List TableRow :=
  [Instr.new, .get8 0 .src, .get16 0 .src, .get32 0 .src, .get64 0 .src, .set8 0, .set16 0,
    .set32 0, .set64 0, .append8 0, .append16 0, .append32 0, .append64 0, .length .src,
    .build 0 0, .rank0, .rank1, .choose, .floorlog2, .popcount 0, .encode 0, .decode 0].map tableRow

theorem tableRow_mem_tableRows (i : Instr) : tableRow i ∈ tableRows := by
  cases i <;> simp [tableRows, tableRow]

/-- Two rows of the table disagree on a bit that both fix. -/
theorem tableRows_disjoint :
    ∀ r ∈ tableRows, ∀ q ∈ tableRows, r.pattern &&& q.mask = q.pattern &&& r.mask → r = q := by
  decide

/-- A word that matches two rows has the values of both on the bits that both fix. -/
theorem tableRow_unique {w : Word} {i j : Instr}
    (hi : w &&& (tableRow i).mask = (tableRow i).pattern)
    (hj : w &&& (tableRow j).mask = (tableRow j).pattern) : tableRow j = tableRow i := by
  refine tableRows_disjoint _ (tableRow_mem_tableRows j) _ (tableRow_mem_tableRows i) ?_
  rw [← hi, ← hj, BitVec.and_assoc, BitVec.and_assoc, BitVec.and_comm (tableRow j).mask]

/-- Settles O4: the word is the encoding of its command, and no word matches two rows. -/
theorem decodedWordMatchesOneTableRow : Obligations.DecodedWordMatchesOneTableRow := by
  unfold Obligations.DecodedWordMatchesOneTableRow
  intro w i hd
  have hown := encode_matches_tableRow (wellFormed_of_decode hd)
  rw [encode_of_decode hd] at hown
  exact ⟨hown, fun j hj => tableRow_unique hown hj⟩

/-- Settles O5: the decoder is run on each word. -/
theorem wordsOfTheSpecDecode : Obligations.WordsOfTheSpecDecode := by
  unfold Obligations.WordsOfTheSpecDecode
  decide

end Sys2Proof
end

-- ==== Illegal words and the engine's step (rules R79, R251) ====
section
/-! The conditions of rule R79 are the words the decoder answers `none` for. -/

namespace Sys2Proof.Machine

/-- The conditions of rule R79 on the numbers of the slices. Its proof compares the opcodes as bit
vectors, since `opcode_eq_iff` does not match the literals of `illegalWord`. -/
theorem illegalWord_iff (w : Word) :
    illegalWord w ↔
      bits w 63 32 ≠ 0 ∨
      (bits w 7 0 = 0x01 ∧ bits w 31 8 ≠ 0) ∨
      (bits w 7 0 = 0x02 ∧ bits w 31 19 ≠ 0) ∨
      (bits w 7 0 = 0x03 ∧ bits w 31 18 ≠ 0) ∨
      (bits w 7 0 = 0x04 ∧ bits w 31 18 ≠ 0) ∨
      (bits w 7 0 = 0x05 ∧ (bits w 31 19 ≠ 0 ∨ bits w 17 8 ≠ 0)) ∨
      (bits w 7 0 = 0x10 ∧ bits w 31 24 ≠ 0) ∨
      (bits w 7 0 = 0x11 ∧ bits w 31 9 ≠ 0) ∨
      ((bits w 7 0 = 0x20 ∨ bits w 7 0 = 0x21) ∧ bits w 31 8 ≠ 0) ∨
      ((bits w 7 0 = 0x22 ∨ bits w 7 0 = 0x23 ∨ bits w 7 0 = 0x24) ∧ bits w 31 16 ≠ 0) ∨
      bits w 7 0 ∉ [0x01, 0x02, 0x03, 0x04, 0x05, 0x10, 0x11, 0x20, 0x21, 0x22, 0x23, 0x24] := by
  have hop (k : Nat) (hk : k < 256) := opcode_eq_iff w hk
  have hz {hi lo : Nat} (h : lo ≤ hi) := extractLsb_eq_zero_iff w h
  simp only [illegalWord, ne_eq, hz, Nat.reduceLeDiff, ← hop, Nat.reduceLT, List.mem_cons,
    List.not_mem_nil, or_false, not_or]
  rfl

/-- A word that decodes meets none of the conditions. -/
theorem not_illegalWord_of_decode {w : Word} {i : Instr} (hd : decode w = some i) :
    ¬ illegalWord w := by
  rw [illegalWord_iff]
  simp only [List.mem_cons, List.not_mem_nil, or_false]
  have hc := decode_cases hd
  omega

/-- A word that meets none of the conditions decodes, opcode by opcode. -/
theorem exists_decode_of_not_illegalWord {w : Word} (hw : ¬ illegalWord w) :
    ∃ i, decode w = some i := by
  rw [illegalWord_iff] at hw
  simp only [not_or, not_not] at hw
  obtain ⟨h, hnew, hget, hset, happ, hlen, hbuild, hrank, h8, h16, hop⟩ := hw
  simp only [List.mem_cons, List.not_mem_nil, or_false] at hop
  rcases hop with hop | hop | hop | hop | hop | hop | hop | hop | hop | hop | hop | hop
  · exact ⟨_, decode_new h hop (by omega)⟩
  · exact ⟨_, decode_get h hop (by omega)⟩
  · exact ⟨_, decode_set h hop (by omega)⟩
  · exact ⟨_, decode_append h hop (by omega)⟩
  · exact ⟨_, decode_length h hop (by omega) (by omega)⟩
  · exact ⟨_, decode_build h hop (by omega)⟩
  · rw [decode_rank h hop (by omega), ← apply_ite some]
    exact ⟨_, rfl⟩
  · exact ⟨_, decode_choose h hop (by omega)⟩
  · exact ⟨_, decode_floorlog2 h hop (by omega)⟩
  · exact ⟨_, decode_popcount h hop (by omega)⟩
  · exact ⟨_, decode_encode h hop (by omega)⟩
  · exact ⟨_, decode_decode h hop (by omega)⟩

theorem runCommand_of_decode {s : State} {i : Instr} (hd : decode s.cmd = some i) :
    runCommand s = exec i s := by
  rw [runCommand, State.commandWord, hd]

/-- Settles O6: the engine's step runs what its word decodes to. -/
theorem stepRunsThePendingCommand : Obligations.StepRunsThePendingCommand := by
  unfold Obligations.StepRunsThePendingCommand
  intro s i hturn hd
  rw [step_enginesTurn hturn, runCommand_of_decode (s := s.turnTaken) hd]

/-- Settles O3: the engine's step latches ILLEGAL_COMMAND where its word does not decode, and the
conditions of rule R79 say where. -/
theorem illegalWordsRaiseIllegalCommand : Obligations.IllegalWordsRaiseIllegalCommand := by
  unfold Obligations.IllegalWordsRaiseIllegalCommand
  intro s hturn
  refine ⟨fun hill => ?_, fun hleg => ?_⟩
  · rcases runCommand_cases s.turnTaken with ⟨-, hrun⟩ | ⟨i, hd, -⟩
    · exact (step_enginesTurn hturn).trans hrun
    · exact absurd hill (not_illegalWord_of_decode hd)
  · obtain ⟨i, hd⟩ := exists_decode_of_not_illegalWord hleg
    exact ⟨i, hd, stepRunsThePendingCommand s i hturn hd⟩

end Sys2Proof.Machine
end

-- ==== The accesses of a mnemonic (rules R84, R244, R250) ====
section
/-! The run of the writes a mnemonic expands to, one access at a time: the idle block takes each ARG
write and accepts the CMD write, and the engine's step ends it. -/

namespace Sys2Proof.Machine

theorem run_one (s : State) : Host.Core.run core 1 s = step s := by
  have hc : core.step = step := rfl
  simp only [Host.Core.run, hc]
  cases step s <;> rfl

/-- A run that begins with an access made only where `b` holds. -/
theorem run_optional {s t : State} (b : Bool) (a : HostAccess) (k : Nat)
    (hstep : b = true → step s = .next t) (hskip : b = false → t = s) :
    Host.Core.run core ((if b then [a] else []).length + k) s = Host.Core.run core k t := by
  cases b with
  | false => rw [hskip rfl]; exact congrArg (Host.Core.run core · s) (Nat.zero_add k)
  | true => rw [Nat.add_comm]; exact run_succ_of_step k (hstep rfl)

theorem writeCmd_accepted {s : State} (hb : s.status.busy = false) (he : s.status.errv = false)
    (v : Word) : writeCmd v s = { s with cmd := v, status := s.status.accept } := by
  rw [writeCmd, hb, he]
  rfl

section
variable {s : State} {base : Nat} {rest : List Event} (hp : s.params.base = base)
  (hb : s.status.busy = false)
include hp hb

/-- The ARG0 write of a mnemonic whose command reads ARG0, or no write (rules R80, R84). -/
theorem run_arg0Write {reads : Bool} {v : Word} {k : Nat}
    (h : s.agenda = (if reads then [hostWr base 0x18 v] else []).map .host ++ rest) :
    Host.Core.run core ((if reads then [hostWr base 0x18 v] else []).length + k) s
      = Host.Core.run core k
          { s with arg0 := if reads then v else s.arg0, agenda := rest } := by
  refine run_optional reads _ k (fun hr => ?_) (fun hr => ?_) <;> subst hp hr
  · exact (step_write h (by decide) (by decide)).trans
      (congrArg _ (writeArg0_taken (s := { s with agenda := rest }) hb v))
  · obtain rfl : s.agenda = rest := h
    rfl

/-- The ARG1 write of a mnemonic whose command reads ARG1, or no write (rules R80, R84). -/
theorem run_arg1Write {reads : Bool} {v : Word} {k : Nat}
    (h : s.agenda = (if reads then [hostWr base 0x20 v] else []).map .host ++ rest) :
    Host.Core.run core ((if reads then [hostWr base 0x20 v] else []).length + k) s
      = Host.Core.run core k
          { s with arg1 := if reads then v else s.arg1, agenda := rest } := by
  refine run_optional reads _ k (fun hr => ?_) (fun hr => ?_) <;> subst hp hr
  · exact (step_write h (by decide) (by decide)).trans
      (congrArg _ (writeArg1_taken (s := { s with agenda := rest }) hb v))
  · obtain rfl : s.agenda = rest := h
    rfl

/-- The CMD write, accepted by the idle block, and the engine's step on its word (rules R250,
R251). -/
theorem run_cmdWrite_engine (he : s.status.errv = false) {w : Word} {i : Instr}
    (hd : decode w = some i)
    (h : s.agenda = .host (hostWr base 0x10 w) :: .engine :: rest) :
    Host.Core.run core 2 s
      = exec i { s with cmd := w, agenda := rest, status := s.status.accept } := by
  subst hp
  have hstep := (step_write h (by decide) (by decide)).trans
    (congrArg _ (writeCmd_accepted (s := { s with agenda := .engine :: rest }) hb he w))
  rw [run_succ_of_step 1 hstep, run_one]
  exact stepRunsThePendingCommand _ i ⟨rfl, .inr ⟨rest, rfl⟩⟩ hd

end

/-- Settles O8: the two ARG writes, then the CMD write and the engine's step. -/
theorem macroRunsItsCommand : Obligations.MacroRunsItsCommand := by
  unfold Obligations.MacroRunsItsCommand
  intro s i a0 a1 rest hb he hwf h
  simp only [macroWrites, List.length_append, List.map_append, List.append_assoc,
    Nat.add_assoc] at h ⊢
  refine (run_arg0Write rfl hb h).trans ?_
  apply Eq.trans
  · apply run_arg1Write
    exacts [rfl, hb, rfl]
  · apply run_cmdWrite_engine
    exacts [rfl, hb, he, decodeReadsBackEncode i hwf, rfl]

end Sys2Proof.Machine
end

-- ==== The registers a command does not use (rules R26, R80) ====
section
/-! A command that does not read an operand register answers the same whatever the register holds:
each shared operation commutes with a write to it. -/

namespace Sys2Proof.Machine

/-- An answer with its next state changed. -/
def Answer.map (f : State → State) : Answer → Answer
  | .next s => .next (f s)
  | .fault r => .fault r
  | .refused r => .refused r

/-- ARG0 <- v. -/
def State.withArg0 (v : Word) (s : State) : State := { s with arg0 := v }

/-- ARG1 <- v. -/
def State.withArg1 (v : Word) (s : State) : State := { s with arg1 := v }

/-! ### Operand registers -/

section
variable (v : Word) (s : State)

theorem appendField_withArg0 (w bs : Nat) :
    appendField w bs (s.withArg0 v) = Answer.map (State.withArg0 v) (appendField w bs s) := by
  simp only [appendField, apply_ite (Answer.map _)]; rfl

theorem execLength_withArg0 (sel : Sel) :
    execLength sel (s.withArg0 v) = Answer.map (State.withArg0 v) (execLength sel s) := by
  cases sel <;> rfl

theorem execBuild_withArg0 (rbs rss : Nat) :
    execBuild rbs rss (s.withArg0 v) = Answer.map (State.withArg0 v) (execBuild rbs rss s) := by
  simp only [execBuild, apply_ite (Answer.map _)]; rfl

/-- A command that does not read ARG0 answers the same at another ARG0. -/
theorem exec_withArg0 {i : Instr} (h : i.readsArg0 = false) :
    exec i (s.withArg0 v) = Answer.map (State.withArg0 v) (exec i s) := by
  cases i with
  | append8 bs => exact appendField_withArg0 v s 8 bs
  | append16 bs => exact appendField_withArg0 v s 16 bs
  | append32 bs => exact appendField_withArg0 v s 32 bs
  | append64 bs => exact appendField_withArg0 v s 64 bs
  | length sel => exact execLength_withArg0 v s sel
  | build rbs rss => exact execBuild_withArg0 v s rbs rss
  | _ => cases h

theorem execNew_withArg1 : execNew (s.withArg1 v) = Answer.map (State.withArg1 v) (execNew s) := by
  simp only [execNew, apply_ite (Answer.map _)]; rfl

theorem getField_withArg1 (w bs : Nat) (sel : Sel) :
    getField w bs sel (s.withArg1 v) = Answer.map (State.withArg1 v) (getField w bs sel s) := by
  simp only [getField, apply_ite (Answer.map _)]; cases sel <;> rfl

theorem execLength_withArg1 (sel : Sel) :
    execLength sel (s.withArg1 v) = Answer.map (State.withArg1 v) (execLength sel s) := by
  cases sel <;> rfl

theorem execBuild_withArg1 (rbs rss : Nat) :
    execBuild rbs rss (s.withArg1 v) = Answer.map (State.withArg1 v) (execBuild rbs rss s) := by
  simp only [execBuild, apply_ite (Answer.map _)]; rfl

theorem rankQuery_withArg1 (f : Nat → Nat → Nat) :
    rankQuery f (s.withArg1 v) = Answer.map (State.withArg1 v) (rankQuery f s) := by
  simp only [rankQuery, apply_ite (Answer.map _)]; rfl

theorem execPopcount_withArg1 (wb : Nat) :
    execPopcount wb (s.withArg1 v) = Answer.map (State.withArg1 v) (execPopcount wb s) := by
  simp only [execPopcount, apply_ite (Answer.map _)]; rfl

theorem execEncode_withArg1 (wb : Nat) :
    execEncode wb (s.withArg1 v) = Answer.map (State.withArg1 v) (execEncode wb s) := by
  simp only [execEncode, apply_ite (Answer.map _)]; rfl

/-- A command that does not read ARG1 answers the same at another ARG1. -/
theorem exec_withArg1 {i : Instr} (h : i.readsArg1 = false) :
    exec i (s.withArg1 v) = Answer.map (State.withArg1 v) (exec i s) := by
  cases i with
  | new => exact execNew_withArg1 v s
  | get8 bs sel => exact getField_withArg1 v s 8 bs sel
  | get16 bs sel => exact getField_withArg1 v s 16 bs sel
  | get32 bs sel => exact getField_withArg1 v s 32 bs sel
  | get64 bs sel => exact getField_withArg1 v s 64 bs sel
  | length sel => exact execLength_withArg1 v s sel
  | build rbs rss => exact execBuild_withArg1 v s rbs rss
  | rank0 => exact rankQuery_withArg1 v s fun i r => i - r
  | rank1 => exact rankQuery_withArg1 v s fun _ r => r
  | floorlog2 => rfl
  | popcount wb => exact execPopcount_withArg1 v s wb
  | encode wb => exact execEncode_withArg1 v s wb
  | _ => cases h

end

/-! ### Result registers -/

theorem execNew_res0 {s t : State} (h : execNew s = .next t) : t.res0 = s.res0 := by
  rcases Nat.lt_or_ge s.params.srcCapBits.toNat s.arg0.toNat with hc | hc
  · cases (execNew_capacity hc).symm.trans h; rfl
  · cases (execNew_ok hc).symm.trans h; rfl

theorem setField_res0 {w bs : Nat} {s t : State} (h : setField w bs s = .next t) :
    t.res0 = s.res0 := by
  by_cases hb : bs = 0 ∨ w < bs
  · cases (setField_bad s hb).symm.trans h; rfl
  · obtain ⟨h1, hw⟩ : 1 ≤ bs ∧ bs ≤ w := by omega
    rcases Nat.lt_or_ge s.src.len.toNat (s.arg0.toNat + bs) with hr | hr
    · cases (setField_range h1 hw hr).symm.trans h; rfl
    · cases (setField_ok h1 hw hr).symm.trans h; rfl

/-- Only NEW and SET do not write RES0. -/
theorem exec_res0 {i : Instr} {s t : State} (h : exec i s = .next t) (hi : i.writesRes0 = false) :
    t.res0 = s.res0 := by
  cases i with
  | new => exact execNew_res0 h
  | set8 bs | set16 bs | set32 bs | set64 bs => exact setField_res0 h
  | _ => cases hi

/-- Only ENCODE writes RES1. -/
theorem exec_res1 {i : Instr} {s t : State} (h : exec i s = .next t) (hi : i.writesRes1 = false) :
    t.res1 = s.res1 := by
  rcases exec_cases i s with ⟨e, hx⟩ | ⟨v, hx⟩ | ⟨v, v', wb, rfl, -⟩ | ⟨-, -, hx⟩ |
    ⟨w, bs, -, -, -, hx⟩ | ⟨w, bs, -, -, -, hx⟩ | ⟨rbs, rss, -, -, -, hx⟩
  case inr.inr.inl => cases hi
  all_goals
    obtain rfl := Host.Outcome.next.inj (hx.symm.trans h)
    simp

/-- Settles O52: reads by what a command answers at another operand, writes by the two frames. -/
theorem unlistedRegistersAreNotUsed : Obligations.UnlistedRegistersAreNotUsed := by
  unfold Obligations.UnlistedRegistersAreNotUsed
  intro i s t h
  refine ⟨fun hi v => ?_, fun hi v => ?_, exec_res0 h, exec_res1 h⟩
  · exact (exec_withArg0 v s hi).trans (congrArg _ h)
  · exact (exec_withArg1 v s hi).trans (congrArg _ h)

end Sys2Proof.Machine
end

-- ==== The primitives on the registers (rules R100 to R102, R110 to R112) ====
section
/-! The commands of format P that expose a primitive: each error the rules name, and the primitive's
mathematical value where there is none. -/

namespace Sys2Proof.Machine

/-! ### CHOOSE -/

theorem execChoose_range {s : State} (h : 64 < s.arg0.toNat) :
    execChoose s = .next (s.raise .invalidOperand) := by
  simp [execChoose, State.operand0, h]

theorem execChoose_ok {s : State} (h : s.arg0.toNat ≤ 64) :
    execChoose s = .next (s.setRes0 (s.arg0.toNat.choose s.arg1.toNat)).complete := by
  simp [execChoose, State.operand0, State.operand1, Nat.not_lt.mpr h, choose_eq]

/-- Settles O33: the loop computes the binomial coefficient, and none with n ≤ 64 reaches 2^61. -/
theorem chooseFollowsItsRule : Obligations.ChooseFollowsItsRule := by
  unfold Obligations.ChooseFollowsItsRule
  refine ⟨decodeReadsBackEncode .choose rfl, fun s => ⟨execChoose_range, fun h => ?_⟩⟩
  exact ⟨execChoose_ok h, choose_lt _ _ h⟩

/-! ### FLOORLOG2 -/

@[simp] theorem floorLog2_zero : floorLog2 0 = 0 := rfl

/-- floorLog2 of a positive u64 is the r with 2^r ≤ x < 2^(r+1) (rule R100). -/
theorem floorLog2_spec {x : Nat} (h : x < 2 ^ 64) (hx : x ≠ 0) :
    2 ^ floorLog2 x ≤ x ∧ x < 2 ^ (floorLog2 x + 1) := by
  have hbw := floorLog2_add_one h hx
  have hle := two_pow_bw_le h hx
  rw [← hbw, Nat.add_sub_cancel] at hle
  exact ⟨hle, hbw ▸ lt_two_pow_bw h⟩

/-- Settles O34: RES0 is `floorLog2` of the operand, which lies between the two powers of two. -/
theorem floorlog2FollowsItsRule : Obligations.Floorlog2FollowsItsRule := by
  unfold Obligations.Floorlog2FollowsItsRule
  refine ⟨decodeReadsBackEncode .floorlog2 rfl, fun s => ⟨floorLog2 s.arg0.toNat, rfl, ?_⟩⟩
  have hlt := s.arg0.isLt
  exact ⟨floorLog2_le hlt, fun h0 => h0 ▸ floorLog2_zero, fun hpos => floorLog2_spec hlt hpos.ne'⟩

/-! ### POPCOUNT -/

theorem execPopcount_range {wb : Nat} (s : State) (h : 64 < wb) :
    execPopcount wb s = .next (s.raise .invalidOperand) := by
  simp [execPopcount, h]

theorem execPopcount_ok {wb : Nat} (s : State) (h : wb ≤ 64) :
    execPopcount wb s
      = .next (s.setRes0 ((List.range wb).countP fun k => s.arg0.getLsbD k)).complete := by
  simp [execPopcount, State.operand0, Nat.not_lt.mpr h, popcount_eq_countP, BitVec.testBit_toNat]

/-- Settles O35: the recursion counts the 1 bits below the width, and the word is the command's own
encoding. -/
theorem popcountFollowsItsRule : Obligations.PopcountFollowsItsRule := by
  unfold Obligations.PopcountFollowsItsRule
  refine fun wb => ⟨fun hwb => ?_, fun s => ⟨execPopcount_range s, execPopcount_ok s⟩⟩
  exact decode_formatP_popcount (decide_eq_true hwb)

end Sys2Proof.Machine
end

-- ==== The words of the container commands (rules R72, R78, R79) ====
section
/-! Each row of GET, SET and APPEND is the format C word of its width code; the words of SET and
APPEND with SEL = 1, and every word of NEW's opcode but one, are illegal. -/

namespace Sys2Proof.Machine

/-- The words the decoder refuses are the illegal ones (rule R79). -/
theorem decode_eq_none_iff (w : Word) : decode w = none ↔ illegalWord w := by
  refine ⟨fun hd => ?_, fun hill => ?_⟩
  · by_contra hleg
    obtain ⟨i, hi⟩ := exists_decode_of_not_illegalWord hleg
    cases hd.symm.trans hi
  · exact Option.eq_none_iff_forall_ne_some.mpr fun i hi => not_illegalWord_of_decode hi hill

/-- NEW's opcode belongs to one legal word (rule R120). -/
theorem eq_one_of_decode_of_opcode_new {w : Word} {i : Instr} (hd : decode w = some i)
    (hop : w.extractLsb 7 0 = 0x01) : w = 0x01 := by
  have hop : bits w 7 0 = 0x01 := by rw [← toNat_extractLsb w (Nat.zero_le 7), hop]; rfl
  obtain ⟨-, -, rfl⟩ : bits w 63 32 = 0 ∧ bits w 31 8 = 0 ∧ i = .new := by
    simpa [hop] using decode_cases hd
  exact (encode_of_decode hd).symm

/-- A word of SET or APPEND that selects IDX is illegal (rules R130, R140). -/
theorem decode_formatC_sel_idx {op bs wc : Nat} (hop : op = 0x03 ∨ op = 0x04) (hbs : bs < 256)
    (hwc : wc < 4) : decode (formatC op bs wc 1) = none := by
  obtain ⟨-, hw, -, -, -, -, h18, -⟩ :=
    bits_formatC (op := op) (sel := 1) (by omega) hbs hwc (by decide)
  rw [decode_eq_none_iff, illegalWord_iff, hw, h18]
  omega

/-! ### The rows by their width codes -/

theorem getRow_widthCode {r : WidthRow (Nat → Sel → Instr)} (hr : r ∈ getRows) :
    ∃ wc < 4, r.2.1 = 0x02 + wc * 2 ^ 16 ∧ r.2.2 = getOfWidthCode wc := by
  simp only [getRows, List.mem_cons, List.not_mem_nil, or_false] at hr
  rcases hr with rfl | rfl | rfl | rfl
  exacts [⟨0, by decide, rfl, rfl⟩, ⟨1, by decide, rfl, rfl⟩, ⟨2, by decide, rfl, rfl⟩,
    ⟨3, by decide, rfl, rfl⟩]

theorem setRow_widthCode {r : WidthRow (Nat → Instr)} (hr : r ∈ setRows) :
    ∃ wc < 4, r.2.1 = 0x03 + wc * 2 ^ 16 ∧ r.2.2 = setOfWidthCode wc := by
  simp only [setRows, List.mem_cons, List.not_mem_nil, or_false] at hr
  rcases hr with rfl | rfl | rfl | rfl
  exacts [⟨0, by decide, rfl, rfl⟩, ⟨1, by decide, rfl, rfl⟩, ⟨2, by decide, rfl, rfl⟩,
    ⟨3, by decide, rfl, rfl⟩]

theorem appendRow_widthCode {r : WidthRow (Nat → Instr)} (hr : r ∈ appendRows) :
    ∃ wc < 4, r.2.1 = 0x04 + wc * 2 ^ 16 ∧ r.2.2 = appendOfWidthCode wc := by
  simp only [appendRows, List.mem_cons, List.not_mem_nil, or_false] at hr
  rcases hr with rfl | rfl | rfl | rfl
  exacts [⟨0, by decide, rfl, rfl⟩, ⟨1, by decide, rfl, rfl⟩, ⟨2, by decide, rfl, rfl⟩,
    ⟨3, by decide, rfl, rfl⟩]

/-- The fields of a format C word in the order in which the rows list them. -/
theorem toWord_row (op bs wc sel : Nat) :
    toWord (op + wc * 2 ^ 16 + bs * 2 ^ 8 + sel * 2 ^ 18) = formatC op bs wc sel :=
  congrArg toWord (by omega)

/-- A row on SRC only: its word with SEL = 0 decodes, and with SEL = 1 it is illegal. -/
theorem decode_srcRow {op bs wc : Nat} {i : Instr} (hop : op = 0x03 ∨ op = 0x04) (hbs : bs < 256)
    (hwc : wc < 4) (hd : decode (formatC op bs wc 0) = some i) :
    decode (toWord (op + wc * 2 ^ 16 + bs * 2 ^ 8)) = some i ∧
      decode (toWord (op + wc * 2 ^ 16 + bs * 2 ^ 8 + 2 ^ 18)) = none :=
  ⟨(congrArg decode (toWord_row op bs wc 0)).trans hd,
    (congrArg decode (toWord_row op bs wc 1)).trans (decode_formatC_sel_idx hop hbs hwc)⟩

theorem decode_getRow {r : WidthRow (Nat → Sel → Instr)} (hr : r ∈ getRows) {bs : Nat}
    (hbs : bs < 256) (sel : Sel) :
    decode (toWord (r.2.1 + bs * 2 ^ 8 + selNumber sel * 2 ^ 18)) = some (r.2.2 bs sel) := by
  obtain ⟨wc, hwc, hword, hcmd⟩ := getRow_widthCode hr
  rw [hword, hcmd, toWord_row]
  exact decode_formatC_get (decide_eq_true hbs) hwc sel

theorem decode_setRow {r : WidthRow (Nat → Instr)} (hr : r ∈ setRows) {bs : Nat}
    (hbs : bs < 256) :
    decode (toWord (r.2.1 + bs * 2 ^ 8)) = some (r.2.2 bs) ∧
      decode (toWord (r.2.1 + bs * 2 ^ 8 + 2 ^ 18)) = none := by
  obtain ⟨wc, hwc, hword, hcmd⟩ := setRow_widthCode hr
  rw [hword, hcmd]
  exact decode_srcRow (.inl rfl) hbs hwc (decode_formatC_set (decide_eq_true hbs) hwc)

theorem decode_appendRow {r : WidthRow (Nat → Instr)} (hr : r ∈ appendRows) {bs : Nat}
    (hbs : bs < 256) :
    decode (toWord (r.2.1 + bs * 2 ^ 8)) = some (r.2.2 bs) ∧
      decode (toWord (r.2.1 + bs * 2 ^ 8 + 2 ^ 18)) = none := by
  obtain ⟨wc, hwc, hword, hcmd⟩ := appendRow_widthCode hr
  rw [hword, hcmd]
  exact decode_srcRow (.inr rfl) hbs hwc (decode_formatC_append (decide_eq_true hbs) hwc)

end Sys2Proof.Machine
end

-- ==== The container commands (rules R120 to R154) ====
section
/-! What NEW, GET, SET, APPEND and LENGTH answer, and what a GET reads after a SET or an APPEND: each
from the bits and bytes that one container operation writes. -/

namespace Sys2Proof.Machine

/-! ### The containers that NEW, SET and APPEND leave -/

theorem Byte.clearLow_zero (v : Byte) : Byte.clearLow 0 v = v := by
  simp [Byte.clearLow]

/-- Every byte at or past L reads as before. -/
theorem Container.readByte_zeroFill_of_outside {c : Container} (h : c.bytes.wf = true) {L a : Nat}
    (ha : L ≤ 8 * a) : (c.zeroFill L).bytes.readByte a = c.bytes.readByte a := by
  rw [Container.zeroFill, Memory.readByte_clearBelow h, Nat.sub_eq_zero_of_le ha,
    Byte.clearLow_zero]

/-- MemWrite of the low bits of a register puts its bits into the window and changes no other. -/
theorem Container.bit_memWrite_low {c : Container} (h : c.bytes.wf = true) (p n : Nat) (v : Word)
    (q : Nat) :
    (c.memWrite p n (v.toNat % 2 ^ n)).bit q
      = if p ≤ q ∧ q < p + n then v.getLsbD (q - p) else c.bit q := by
  rw [Container.bit_memWrite h, Nat.testBit_mod_two_pow, BitVec.testBit_toNat]
  refine ite_congr rfl (fun hq => ?_) fun _ => rfl
  rw [decide_eq_true (by omega), Bool.true_and]

/-- A second identical MemWrite changes nothing. -/
theorem Container.memWrite_memWrite_same {c : Container} (h : c.bytes.wf = true) (p n v : Nat) :
    (c.memWrite p n v).memWrite p n v = c.memWrite p n v := by
  have h' := Container.wf_memWrite h p n v
  refine Container.ext_of_bit (Container.wf_memWrite h' p n v) h'
    (Container.len_memWrite _ p n v) fun q => ?_
  rw [Container.bit_memWrite h', Container.bit_memWrite h]
  split_ifs <;> rfl

/-! ### NEW and LENGTH -/

/-- Settles O22: the word by its opcode, the container by the bits and bytes `zeroFill` leaves. -/
theorem newFollowsItsRule : Obligations.NewFollowsItsRule := by
  unfold Obligations.NewFollowsItsRule
  refine ⟨decodeReadsBackEncode .new rfl, fun w hop hne => ?_,
    fun s => ⟨execNew_capacity, fun hcap hwf => ?_⟩⟩
  · exact Option.eq_none_iff_forall_ne_some.mpr fun i hd =>
      hne (eq_one_of_decode_of_opcode_new hd hop)
  · refine ⟨_, execNew_ok hcap, ?_, fun p => ?_, fun a ha => ?_⟩
    · simp
    · exact Container.bit_zeroFill (c := s.src.setLen s.arg0.toNat) hwf _ p
    · exact Container.readByte_zeroFill_of_outside (c := s.src.setLen s.arg0.toNat) hwf ha

theorem execLength_eq (sel : Sel) (s : State) :
    execLength sel s = .next { s.idle with res0 := (s.container sel).len } := by
  rw [execLength, State.setRes0, toWord, BitVec.ofNat_toNat, BitVec.setWidth_eq]
  rfl

/-- Settles O26: the length is written to RES0 whole. -/
theorem lengthFollowsItsRule : Obligations.LengthFollowsItsRule := by
  unfold Obligations.LengthFollowsItsRule
  exact ⟨decodeReadsBackEncode (.length .src) rfl, decodeReadsBackEncode (.length .idx) rfl,
    fun s => ⟨execLength_eq .src s, execLength_eq .idx s⟩⟩

/-! ### GET, SET and APPEND at the four widths -/

theorem exec_appendRow {r : WidthRow (Nat → Instr)} (hr : r ∈ appendRows) (bs : Nat) (s : State) :
    exec (r.2.2 bs) s = appendField r.1 bs s := by
  simp only [appendRows, List.mem_cons, List.not_mem_nil, or_false] at hr
  rcases hr with rfl | rfl | rfl | rfl <;> rfl

/-- Settles O23: the four widths share one operation, whose MemRead is the sum of rule R11. -/
theorem getFollowsItsRule : Obligations.GetFollowsItsRule := by
  unfold Obligations.GetFollowsItsRule
  refine fun r hr bs sel => ⟨fun hbs => decode_getRow hr hbs sel, fun s => ?_⟩
  intro c
  have hc : s.container sel = c := by cases sel <;> rfl
  rw [exec_getRow hr, ← hc]
  refine ⟨getField_bad sel s, getField_range, fun h1 hw hlen => ?_⟩
  rw [← Container.memRead_eq_sum]
  exact getField_ok h1 hw hlen

/-- Settles O24: the four widths share one operation, whose MemWrite writes the window alone. -/
theorem setFollowsItsRule : Obligations.SetFollowsItsRule := by
  unfold Obligations.SetFollowsItsRule
  refine fun r hr bs => ⟨decode_setRow hr, fun s => ?_⟩
  rw [exec_setRow hr]
  refine ⟨setField_bad s, setField_range, fun h1 hw hlen hwf => ?_⟩
  exact ⟨_, setField_ok h1 hw hlen, Container.len_memWrite _ _ _ _,
    Container.bit_memWrite_low hwf _ _ _, fun a => Container.readByte_memWrite_of_outside hwf⟩

/-- The length an APPEND writes is a u64, since it is within the capacity. -/
theorem State.toNat_appended_len {s : State} {bs : Nat}
    (h : s.src.len.toNat + bs ≤ s.params.srcCapBits.toNat) :
    (toWord (s.src.len.toNat + bs)).toNat = s.src.len.toNat + bs := by
  rw [BitVec.toNat_ofNat, Nat.mod_eq_of_lt (h.trans_lt s.params.srcCapBits.isLt)]

/-- Settles O25: as SET, at the old end of SRC with its length grown. -/
theorem appendFollowsItsRule : Obligations.AppendFollowsItsRule := by
  unfold Obligations.AppendFollowsItsRule
  refine fun r hr bs => ⟨decode_appendRow hr, fun s => ?_⟩
  rw [exec_appendRow hr]
  refine ⟨appendField_bad s, appendField_capacity, fun h1 hw hcap hwf => ?_⟩
  have hwf : (s.src.setLen (s.src.len.toNat + bs)).bytes.wf = true := hwf
  refine ⟨_, appendField_ok h1 hw hcap, ?_, Container.bit_memWrite_low hwf _ _ _,
    fun a => Container.readByte_memWrite_of_outside hwf⟩
  simpa using State.toNat_appended_len hcap

/-! ### A GET after a SET or an APPEND -/

theorem width_eq_of_mem_zip_set {p : WidthRow (Nat → Instr) × WidthRow (Nat → Sel → Instr)}
    (hp : p ∈ setRows.zip getRows) : p.1.1 = p.2.1 := by
  revert p
  simp [setRows, getRows]

theorem width_eq_of_mem_zip_append {p : WidthRow (Nat → Instr) × WidthRow (Nat → Sel → Instr)}
    (hp : p ∈ appendRows.zip getRows) : p.1.1 = p.2.1 := by
  revert p
  simp [appendRows, getRows]

/-- The low bits of a value that has no others are the value. -/
theorem toWord_low_of_lt {v : Word} {bs : Nat} (h : v.toNat < 2 ^ bs) :
    toWord (v.toNat % 2 ^ bs) = v := by
  rw [Nat.mod_eq_of_lt h, toWord, BitVec.ofNat_toNat, BitVec.setWidth_eq]

/-- Settles O27: the GET reads the low bits of ARG1, which are all of it. -/
theorem setThenGetReturnsTheValue : Obligations.SetThenGetReturnsTheValue := by
  unfold Obligations.SetThenGetReturnsTheValue
  intro p hp bs s h1 hw hlen hv hwf
  obtain ⟨hset, hget⟩ := List.of_mem_zip hp
  obtain ⟨t, ht, hu⟩ :=
    setField_then_getField h1 hw (hw.trans_eq (width_eq_of_mem_zip_set hp)) hlen hwf
  obtain rfl := Host.Outcome.next.inj ((setField_ok h1 hw hlen).symm.trans ht)
  exact ⟨_, _, (exec_setRow hset bs s).trans ht, (exec_getRow hget bs .src _).trans hu, rfl, rfl,
    toWord_low_of_lt hv⟩

/-- Settles O28: MemRead of the other window is the same on both containers. -/
theorem setKeepsDisjointWindows : Obligations.SetKeepsDisjointWindows := by
  unfold Obligations.SetKeepsDisjointWindows
  intro r hr r' hr' bs bs' j s t h1 hw hlen hwf h1' hw' hlen' hdisj ht
  rw [exec_setRow hr, setField_ok h1 hw hlen] at ht
  obtain rfl := Host.Outcome.next.inj ht
  rw [exec_getRow hr', exec_getRow hr']
  refine ⟨_, _, getField_ok h1' hw' ?_, getField_ok h1' hw' hlen', rfl, rfl, ?_⟩
  · simpa [State.container] using hlen'
  · exact congrArg toWord (Container.memRead_memWrite_disjoint hwf hdisj)

/-- Settles O29: the second SET is the same MemWrite again. -/
theorem setIsIdempotent : Obligations.SetIsIdempotent := by
  unfold Obligations.SetIsIdempotent
  intro r hr bs s h1 hw hlen hwf
  refine ⟨_, _, (exec_setRow hr bs s).trans (setField_ok h1 hw hlen),
    (exec_setRow hr bs _).trans (setField_ok h1 hw ?_), ?_⟩
  · simpa using hlen
  · exact Container.memWrite_memWrite_same hwf _ _ _

/-- Settles O30: the GET at the old length reads the window the APPEND wrote. -/
theorem appendThenGetReturnsTheValue : Obligations.AppendThenGetReturnsTheValue := by
  unfold Obligations.AppendThenGetReturnsTheValue
  intro p hp bs s h1 hw hcap hv hwf
  obtain ⟨happ, hget⟩ := List.of_mem_zip hp
  have hlen := State.toNat_appended_len hcap
  refine ⟨_, _, (exec_appendRow happ bs s).trans (appendField_ok h1 hw hcap), ?_,
    (exec_getRow hget bs .src _).trans
      (getField_ok h1 (hw.trans_eq (width_eq_of_mem_zip_append hp)) ?_), rfl, ?_⟩
  · simpa using hlen
  · simpa [State.container] using hlen.ge
  · have hread := Container.memRead_memWrite_same
      (c := s.src.setLen (s.src.len.toNat + bs)) hwf s.src.len.toNat bs (s.arg1.toNat % 2 ^ bs)
    rw [Nat.mod_mod] at hread
    exact (congrArg toWord hread).trans (toWord_low_of_lt hv)

end Sys2Proof.Machine
end

-- ==== The index outlasts the container commands (rules R155, R191) ====
section
/-! A rank, and that a state indexes a sequence, depend on IDX and what describes it alone; NEW, SET
and APPEND leave those, and so does every step but a reset and a BUILD. -/

namespace Sys2Proof.Machine

theorem ne_build_of_srcCommand {i : Instr}
    (hi : i = .new ∨ (∃ bs, ∃ r ∈ setRows, i = r.2.2 bs) ∨ ∃ bs, ∃ r ∈ appendRows, i = r.2.2 bs)
    (rbs rss : Nat) : i ≠ .build rbs rss := by
  rintro rfl
  simp [setRows, appendRows] at hi

/-- RANK0 and RANK1 are rank queries (rules R195, R196). -/
theorem exec_rank {q : Instr} (hq : q ∈ [Instr.rank0, Instr.rank1]) :
    ∃ f, ∀ s, exec q s = rankQuery f s := by
  simp only [List.mem_cons, List.not_mem_nil, or_false] at hq
  rcases hq with rfl | rfl
  exacts [⟨fun i r => i - r, fun _ => rfl⟩, ⟨fun _ r => r, fun _ => rfl⟩]

section
variable {s t : State} (hidx : t.idx = s.idx) (hn : t.idxN = s.idxN) (hg : t.idxGeom = s.idxGeom)
  (hb : t.status.built = s.status.built)
include hidx hn hg hb

/-- Two states with one index answer a rank query at one position alike. -/
theorem rankQuery_res0_congr (f : Nat → Nat → Nat) (ha : t.arg0 = s.arg0)
    (hbuilt : s.status.built = true) (hi : s.arg0.toNat ≤ s.idxN.toNat) :
    ∃ u v, rankQuery f t = .next u ∧ rankQuery f s = .next v ∧ u.res0 = v.res0 := by
  refine ⟨_, _, rankQuery_ok f (hb.trans hbuilt) (by rwa [ha, hn]), rankQuery_ok f hbuilt hi, ?_⟩
  simp [State.geometry, ha, hidx, hn, hg]

theorem State.indexes_of_eq {B : Nat → Bool} (h : s.indexes B) : t.indexes B := by
  obtain ⟨hbuilt, hlegal, hholds⟩ := h
  refine ⟨hb.trans hbuilt, State.indexLegal_of_eq hlegal hn hg hidx hb, ?_⟩
  rwa [hidx, show t.geometry = s.geometry by simp only [State.geometry, hn, hg]]

end

/-- Settles O48: none of the three is a BUILD, and a rank reads the index alone. -/
theorem srcCommandsKeepTheIndex : Obligations.SrcCommandsKeepTheIndex := by
  unfold Obligations.SrcCommandsKeepTheIndex
  intro i s t hi h
  obtain ⟨hidx, hn, hg, hb⟩ := exec_index_frame h (ne_build_of_srcCommand hi)
  refine ⟨hidx, hn, hg, hb, fun hbuilt q hq p hp => ?_⟩
  obtain ⟨f, hf⟩ := exec_rank hq
  rw [hf, hf]
  exact rankQuery_res0_congr (s := { s with arg0 := p }) (t := { t with arg0 := p })
    hidx hn hg hb f rfl hbuilt hp

/-- The engine's step leaves the index unless its word is a BUILD. -/
theorem runCommand_keeps_index {s t : State} {B : Nat → Bool} (h : s.indexes B)
    (hr : runCommand s = .next t) (hno : ¬ ∃ rbs rss, decode s.cmd = some (.build rbs rss)) :
    t.indexes B := by
  rcases runCommand_cases s with ⟨-, hx⟩ | ⟨i, hd, hx⟩
  · obtain rfl := Host.Outcome.next.inj (hx.symm.trans hr)
    exact State.indexes_of_eq rfl rfl rfl rfl h
  · obtain ⟨hidx, hn, hg, hb⟩ :=
      exec_index_frame (hx.symm.trans hr) fun rbs rss hi => hno ⟨rbs, rss, hi ▸ hd⟩
    exact State.indexes_of_eq hidx hn hg hb h

/-- Settles O49, by the cases of a step: all but the engine's step and a reset leave the index and
the registers that describe it. -/
theorem indexLastsUntilResetOrBuild : Obligations.IndexLastsUntilResetOrBuild := by
  unfold Obligations.IndexLastsUntilResetOrBuild
  intro s t B h hstep hreset hbuild
  rcases step_cases hstep with ⟨hturn, hrun⟩ | ⟨hr, -⟩ | ⟨v, n, rfl⟩ | rfl | ⟨-, -, v, rfl⟩ |
    ⟨-, v, rfl | rfl⟩
  case inl => exact runCommand_keeps_index (s := s.turnTaken) h hrun fun hb => hbuild ⟨hturn, hb⟩
  case inr.inl => exact absurd hr hreset
  all_goals exact State.indexes_of_eq rfl rfl rfl rfl h

end Sys2Proof.Machine
end

-- ==== The block codec (rules R160 to R164, R170, R171) ====
section
/-! The scans of the codec against the closed forms of rules R160 and R161: class and offset as sums
over the set positions, the two scans as inverse maps, and the order of the offsets; then ENCODE and
DECODE on the registers. -/

namespace Sys2Proof.Machine

/-! ### Class, offset and reversal of a block, bit by bit -/

theorem classOf_eq_popcount (b V : Nat) : classOf b V = popcount b V :=
  (popcount_eq_countP b V).symm

/-- The ones of V at or past position p + 1 are the ones of V / 2 at or past position p. -/
theorem countP_from_succ (m p V : Nat) :
    ((List.range (m + 1)).countP fun q => decide (p + 1 ≤ q) && V.testBit q)
      = (List.range m).countP fun q => decide (p ≤ q) && (V / 2).testBit q := by
  rw [List.range_succ_eq_map, List.countP_cons_of_neg (by simp), List.countP_map]
  simp [Function.comp_def, Nat.testBit_succ]

theorem classOf_succ (m V : Nat) : classOf (m + 1) V = V % 2 + classOf m (V / 2) := by
  rw [classOf_eq_popcount, popcount_succ, classOf_eq_popcount]

theorem offsetOf_succ (m V : Nat) :
    offsetOf (m + 1) V
      = (if V % 2 = 1 then m.choose (classOf (m + 1) V) else 0) + offsetOf m (V / 2) := by
  rw [offsetOf, Finset.sum_range_succ', Nat.add_comm]
  congr 1
  · simp [classOf, Nat.testBit_zero]
  · refine Finset.sum_congr rfl fun p _ => ?_
    rw [Nat.testBit_succ, countP_from_succ, show m + 1 - (p + 1) - 1 = m - p - 1 by omega]

theorem reversed_succ (m V : Nat) :
    reversed (m + 1) V = (if V % 2 = 1 then 2 ^ m else 0) + reversed m (V / 2) := by
  rw [reversed, Finset.sum_range_succ', Nat.add_comm]
  congr 1
  · simp [Nat.testBit_zero]
  · refine Finset.sum_congr rfl fun p _ => ?_
    rw [Nat.testBit_succ, show m + 1 - 1 - (p + 1) = m - 1 - p by omega]

theorem reversed_lt (m V : Nat) : reversed m V < 2 ^ m := by
  induction m generalizing V with
  | zero => simp [reversed]
  | succ m ih =>
    have := ih (V / 2)
    rw [reversed_succ, Nat.pow_succ]
    split <;> omega

/-- The scan of rule R160 adds up its closed form. -/
theorem offsetOf_eq_scanOffset (b V : Nat) : offsetOf b V = scanOffset b V := by
  induction b generalizing V with
  | zero => rfl
  | succ m ih => rw [offsetOf_succ, scanOffset_succ, classOf_eq_popcount, ih]

theorem encodeBlock_eq_classOf_offsetOf (b V : Nat) :
    encodeBlock b V = (classOf b V, offsetOf b V) := by
  rw [encodeBlock_eq, classOf_eq_popcount, offsetOf_eq_scanOffset]

theorem scanOffset_mod (m V : Nat) : scanOffset m (V % 2 ^ m) = scanOffset m V := by
  induction m generalizing V with
  | zero => rfl
  | succ m ih =>
    have hlow : V % 2 ^ (m + 1) % 2 = V % 2 := Nat.mod_mod_of_dvd V (Dvd.intro_left _ rfl)
    have hhigh : V % 2 ^ (m + 1) / 2 = V / 2 % 2 ^ m := by
      rw [Nat.pow_succ', Nat.mod_mul_right_div_self]
    rw [scanOffset_succ, popcount_mod, hlow, hhigh, ih, scanOffset_succ]

/-- Bits at and past position b do not count (rule R170). -/
theorem encodeBlock_mod (b V : Nat) : encodeBlock b (V % 2 ^ b) = encodeBlock b V := by
  rw [encodeBlock_eq, encodeBlock_eq, popcount_mod, scanOffset_mod]

/-! ### The codec as a bijection (rules R161, R162) -/

theorem classOf_le (b V : Nat) : classOf b V ≤ b :=
  classOf_eq_popcount b V ▸ popcount_le b V

theorem offsetOf_lt (b V : Nat) : offsetOf b V < b.choose (classOf b V) := by
  rw [offsetOf_eq_scanOffset, classOf_eq_popcount]
  exact scanOffset_lt b V

/-- Every offset fits a register. -/
theorem offsetOf_lt_two_pow {b : Nat} (V : Nat) (h : b ≤ 64) : offsetOf b V < 2 ^ 61 :=
  (offsetOf_lt b V).trans (choose_lt b _ h)

theorem unrank_classOf_offsetOf (b V : Nat) :
    unrank b (classOf b V) (offsetOf b V) = V % 2 ^ b := by
  rw [offsetOf_eq_scanOffset, classOf_eq_popcount]
  exact unrankScan_scanOffset b V

/-- unrank answers the block of a legal pair (rule R162). -/
theorem unrank_spec {b c o : Nat} (hc : c ≤ b) (ho : o < b.choose c) :
    unrank b c o < 2 ^ b ∧ classOf b (unrank b c o) = c ∧ offsetOf b (unrank b c o) = o := by
  rw [offsetOf_eq_scanOffset, classOf_eq_popcount]
  exact scanOffset_unrankScan hc ho

/-- Settles O39: `unrank` is the inverse map. -/
theorem encodeIsABijection : Obligations.EncodeIsABijection := by
  unfold Obligations.EncodeIsABijection
  intro b _ _
  refine Set.InvOn.bijOn (f' := fun co => unrank b co.1 co.2) ⟨fun V hV => ?_, ?_⟩ ?_ ?_
  · rw [encodeBlock_eq_classOf_offsetOf]
    exact (unrank_classOf_offsetOf b V).trans (Nat.mod_eq_of_lt hV)
  · rintro ⟨c, o⟩ ⟨hc, ho⟩
    obtain ⟨-, hclass, hoff⟩ := unrank_spec hc ho
    rw [encodeBlock_eq_classOf_offsetOf, hclass, hoff]
  · intro V _
    rw [encodeBlock_eq_classOf_offsetOf]
    exact ⟨classOf_le b V, offsetOf_lt b V⟩
  · rintro ⟨c, o⟩ ⟨hc, ho⟩
    exact (unrank_spec hc ho).1

/-! ### The order of the offsets (rule R161) -/

/-- A block with a 0 at its first position comes before every block of its class with a 1 there, in
both orders. -/
theorem offsetOf_lt_and_reversed_lt {m U V : Nat} (hc : classOf (m + 1) U = classOf (m + 1) V)
    (hU : U % 2 = 0) (hV : V % 2 = 1) :
    offsetOf (m + 1) U < offsetOf (m + 1) V ∧ reversed (m + 1) U < reversed (m + 1) V := by
  have hclass : classOf m (U / 2) = classOf (m + 1) V := by
    rw [← hc, classOf_succ, hU, Nat.zero_add]
  have hoff := hclass ▸ offsetOf_lt m (U / 2)
  have hrev := reversed_lt m (U / 2)
  simp only [offsetOf_succ, reversed_succ, hU, hV, if_true, Nat.zero_ne_one, if_false]
  omega

/-- Within a class, offsets are in the order of the reversed blocks: the first position at which two
blocks differ decides both. -/
theorem offsetOf_lt_iff_reversed_lt {m U V : Nat} (hc : classOf m U = classOf m V) :
    offsetOf m U < offsetOf m V ↔ reversed m U < reversed m V := by
  induction m generalizing U V with
  | zero => simp [offsetOf, reversed]
  | succ m ih =>
    by_cases hfirst : U % 2 = V % 2
    · have htail : classOf m (U / 2) = classOf m (V / 2) := by
        rw [classOf_succ, classOf_succ, hfirst] at hc
        exact Nat.add_left_cancel hc
      rw [offsetOf_succ, offsetOf_succ, reversed_succ, reversed_succ, hc, hfirst,
        Nat.add_lt_add_iff_left, Nat.add_lt_add_iff_left, ih htail]
    · rcases Nat.mod_two_eq_zero_or_one U with hU | hU
      · obtain ⟨hoff, hrev⟩ := offsetOf_lt_and_reversed_lt hc hU (by omega)
        exact iff_of_true hoff hrev
      · obtain ⟨hoff, hrev⟩ := offsetOf_lt_and_reversed_lt hc.symm (by omega) hU
        exact iff_of_false hoff.asymm hrev.asymm

/-- Of the blocks of class c, each offset below C(b, c) belongs to one. -/
theorem card_filter_offsetOf_lt {b c k : Nat} (hc : c ≤ b) (hk : k ≤ b.choose c) :
    ((Finset.range (2 ^ b)).filter fun U => classOf b U = c ∧ offsetOf b U < k).card = k := by
  conv_rhs => rw [← Finset.card_range k]
  refine Finset.card_nbij' (offsetOf b) (unrank b c) (fun U hU => ?_) (fun o ho => ?_)
    (fun U hU => ?_) fun o ho => ?_ <;>
    simp only [Finset.coe_filter, Finset.coe_range, Finset.mem_range, Set.mem_ofPred_eq,
      Set.mem_Iio] at *
  · exact hU.2.2
  · obtain ⟨hlt, hclass, hoff⟩ := unrank_spec hc (ho.trans_le hk)
    exact ⟨hlt, hclass, hoff.trans_lt ho⟩
  · obtain ⟨hlt, rfl, -⟩ := hU
    exact (unrank_classOf_offsetOf b U).trans (Nat.mod_eq_of_lt hlt)
  · exact (unrank_spec hc (ho.trans_le hk)).2.2

/-- Settles O40: the blocks of the class with a smaller reversal are those with a smaller offset. -/
theorem offsetIsTheLexicographicRank : Obligations.OffsetIsTheLexicographicRank := by
  unfold Obligations.OffsetIsTheLexicographicRank
  intro b V _ _ _
  rw [encodeBlock_eq_classOf_offsetOf, Finset.filter_congr fun U _ =>
    and_congr_right fun hclass => (offsetOf_lt_iff_reversed_lt hclass).symm]
  exact (card_filter_offsetOf_lt (classOf_le b V) (offsetOf_lt b V).le).symm

/-- Settles O41: the class is at most b, the offset below its binomial, and each field is the bit
width of its bound. -/
theorem classAndOffsetFitTheirFields : Obligations.ClassAndOffsetFitTheirFields := by
  unfold Obligations.ClassAndOffsetFitTheirFields
  intro n b s V h1 h64 _
  have hmid : b.choose (b / 2) < 2 ^ 61 := choose_lt b (b / 2) h64
  have hpos : b.choose (b / 2) ≠ 0 := (Nat.choose_pos (Nat.div_le_self b 2)).ne'
  rw [encodeBlock_eq_classOf_offsetOf]
  refine ⟨classOf_le b V, (floorLog2_spec (by omega) (by omega)).2, offsetOf_lt b V,
    Nat.choose_le_middle _ b, ?_⟩
  rw [Geometry.of, choose_eq]
  exact (floorLog2_spec (by omega) hpos).2

/-! ### ENCODE and DECODE on the registers (rules R170, R171) -/

theorem execEncode_invalid {wb : Nat} (s : State) (h : wb = 0 ∨ 64 < wb) :
    execEncode wb s = .next (s.raise .invalidOperand) :=
  if_pos ((badBlockSize_iff wb).mpr h)

theorem execEncode_ok {wb : Nat} (s : State) (h1 : 1 ≤ wb) (h64 : wb ≤ 64) :
    execEncode wb s = .next ((s.setRes0 (classOf wb s.arg0.toNat)).setRes1
      (offsetOf wb s.arg0.toNat)).complete := by
  rw [execEncode, badBlockSize_eq_false h1 h64, if_neg Bool.false_ne_true, low, encodeBlock_mod,
    encodeBlock_eq_classOf_offsetOf, State.operand0]

theorem execDecode_invalid {wb : Nat} {s : State}
    (h : wb = 0 ∨ 64 < wb ∨ wb < s.arg0.toNat ∨ wb.choose s.arg0.toNat ≤ s.arg1.toNat) :
    execDecode wb s = .next (s.raise .invalidOperand) := by
  simp only [execDecode, badBlockSize_iff, choose_eq, State.operand0, State.operand1]
  split_ifs
  case neg => omega
  all_goals rfl

theorem execDecode_ok {wb : Nat} {s : State} (h1 : 1 ≤ wb) (h64 : wb ≤ 64)
    (hc : s.arg0.toNat ≤ wb) (ho : s.arg1.toNat < wb.choose s.arg0.toNat) :
    execDecode wb s = .next (s.setRes0 (unrank wb s.arg0.toNat s.arg1.toNat)).complete := by
  rw [execDecode, badBlockSize_eq_false h1 h64, if_neg Bool.false_ne_true, State.operand0,
    State.operand1, if_neg hc.not_gt, choose_eq, if_neg ho.not_ge]

theorem toNat_toWord_of_lt {n : Nat} (h : n < 2 ^ 64) : (toWord n).toNat = n :=
  (BitVec.toNat_ofNat n 64).trans (Nat.mod_eq_of_lt h)

theorem toNat_toWord_classOf {b : Nat} (V : Nat) (h : b ≤ 64) :
    (toWord (classOf b V)).toNat = classOf b V :=
  toNat_toWord_of_lt (by have := classOf_le b V; omega)

theorem toNat_toWord_offsetOf {b : Nat} (V : Nat) (h : b ≤ 64) :
    (toWord (offsetOf b V)).toNat = offsetOf b V :=
  toNat_toWord_of_lt (by have := offsetOf_lt_two_pow V h; omega)

/-- Settles O36: the scan adds up the closed form, which bits at and past b do not change. -/
theorem encodeFollowsItsRule : Obligations.EncodeFollowsItsRule := by
  unfold Obligations.EncodeFollowsItsRule
  refine fun wb => ⟨fun hwb => decode_formatP_encode (decide_eq_true hwb), fun s =>
    ⟨execEncode_invalid s, fun h1 h64 => ⟨execEncode_ok s h1 h64, offsetOf_lt_two_pow _ h64⟩⟩⟩

/-- Settles O37: the block is `unrank` of the two operands. -/
theorem decodeFollowsItsRule : Obligations.DecodeFollowsItsRule := by
  unfold Obligations.DecodeFollowsItsRule
  refine fun wb => ⟨fun hwb => decode_formatP_decode (decide_eq_true hwb), fun s =>
    ⟨execDecode_invalid, fun h1 h64 hc ho => ?_⟩⟩
  obtain ⟨hlt, hclass, hoff⟩ := unrank_spec hc ho
  exact ⟨_, hlt, hclass, hoff, execDecode_ok h1 h64 hc ho⟩

/-- Settles O38: classes, offsets and blocks all fit a register, so that each command starts from
what the other computed, and the two scans undo each other. -/
theorem encodeAndDecodeAreInverse : Obligations.EncodeAndDecodeAreInverse := by
  unfold Obligations.EncodeAndDecodeAreInverse
  intro wb s h1 h64
  constructor
  · have hclass := toNat_toWord_classOf s.arg0.toNat h64
    have hoff := toNat_toWord_offsetOf s.arg0.toNat h64
    refine ⟨_, _, execEncode_ok s h1 h64, execDecode_ok h1 h64 ?_ ?_, ?_⟩
    · simpa [hclass] using classOf_le wb s.arg0.toNat
    · simpa [hclass, hoff] using offsetOf_lt wb s.arg0.toNat
    · simp [hclass, hoff, unrank_classOf_offsetOf]
  · intro hc ho
    obtain ⟨hlt, hclass, hoff⟩ := unrank_spec hc ho
    have hblock := toNat_toWord_of_lt (hlt.trans_le (Nat.pow_le_pow_right (by decide) h64))
    refine ⟨_, _, execDecode_ok h1 h64 hc ho, execEncode_ok _ h1 h64, ?_, ?_⟩
    · simp [hblock, hclass]
    · simp [hblock, hoff]

end Sys2Proof.Machine
end

-- ==== The geometry of an index (rules R28, R181 to R184) ====
section
/-! The geometry BUILD computes in the terms of rule R181 (logarithms, binomials, ceilings), and the
word of IDX_GEOM as the disjunction of its fields. -/

namespace Sys2Proof.Machine

theorem floorLog2_eq_log {x : Nat} (h : x < 2 ^ 64) : floorLog2 x = Nat.log 2 x := by
  rcases eq_or_ne x 0 with rfl | hx
  · simp
  · obtain ⟨hle, hlt⟩ := floorLog2_spec h hx
    exact (Nat.log_eq_of_pow_le_of_lt_pow hle hlt).symm

theorem bw_eq_log {x : Nat} (h : x < 2 ^ 64) : bw x = if x = 0 then 0 else Nat.log 2 x + 1 := by
  split_ifs with hx
  · rw [hx]; rfl
  · rw [← floorLog2_add_one h hx, floorLog2_eq_log h]

/-- "so an auto b is at most 31" (rule R181). -/
theorem chosenBlockSize_auto_le {n : Nat} (h : n < 2 ^ 64) : chosenBlockSize n 0 ≤ 31 := by
  have := floorLog2_le h
  rw [chosenBlockSize, if_pos rfl]
  omega

/-- "and an auto s at most 63" (rule R181). -/
theorem chosenSuperSize_auto_le {n rss : Nat} (h : n < 2 ^ 64) (hs : rss ≤ 1) :
    chosenSuperSize n rss ≤ 63 := by
  have := floorLog2_le h
  rw [chosenSuperSize, if_pos hs]
  omega

/-- Settles O42: each field is a logarithm or a binomial by the lemmas on the primitives, the counts
are ceilings, and the ranges are those of a legal geometry. -/
theorem geometryFollowsItsRule : Obligations.GeometryFollowsItsRule := by
  unfold Obligations.GeometryFollowsItsRule
  intro n rbs rss hn hrbs hrss g
  have hl : g.legal := Geometry.legal_make hn hrbs hrss
  obtain ⟨hcfs, hofs, hcrfs⟩ := hl.bounds
  obtain ⟨hb1, hb64, hs2, hs255, -⟩ := hl
  have hblocks : n ≤ g.blocks * g.b ∧ g.blocks * g.b < n + g.b := ceilDiv_le hb1
  have hsupers : g.blocks ≤ g.supers * g.s ∧ g.supers * g.s < g.blocks + g.s :=
    ceilDiv_le (Nat.zero_lt_of_lt hs2)
  have hlog : floorLog2 n = Nat.log 2 n := floorLog2_eq_log hn
  have hmid : choose g.b (g.b / 2) < 2 ^ 61 := choose_eq g.b _ ▸ choose_lt g.b _ hb64
  have hcfs_eq : g.cfs = Nat.log 2 g.b + 1 :=
    congrArg (· + 1) (floorLog2_eq_log (x := g.b) (by omega))
  have hofs_eq : g.ofs = Nat.log 2 (g.b.choose (g.b / 2)) + 1 :=
    choose_eq g.b _ ▸ congrArg (· + 1) (floorLog2_eq_log (hmid.trans (by decide)))
  have hcrfs_eq : g.crfs = if n = 0 then 0 else Nat.log 2 n + 1 := bw_eq_log hn
  refine ⟨rfl, ?_, ?_, hcfs_eq, hofs_eq, hcrfs_eq, rfl, rfl, hblocks.1, hblocks.2, hsupers.1,
    hsupers.2, rfl, hb1, hb64, hs2, hs255, ?_, hcfs, ?_, hofs, hcrfs, ?_, ?_,
    chosenSuperSize_auto_le hn⟩
  · exact hlog ▸ rfl
  · exact hlog ▸ rfl
  · omega
  · omega
  · rw [hcrfs_eq]
    split_ifs with h0 <;> simp [h0]
  · rintro rfl
    exact chosenBlockSize_auto_le hn

theorem or_shiftLeft_eq_add {a k : Nat} (h : a < 2 ^ k) (b : Nat) :
    a ||| b <<< k = a + b * 2 ^ k := by
  rw [Nat.lor_comm, ← Nat.shiftLeft_add_eq_or_of_lt h, Nat.add_comm, Nat.shiftLeft_eq]

/-- The fields of IDX_GEOM do not overlap (rules R28, R190). -/
theorem Geometry.legal.word_eq_or {g : Geometry} (h : g.legal) :
    g.word = toWord (g.b ||| g.s <<< 8 ||| g.cfs <<< 16 ||| g.ofs <<< 24 ||| g.crfs <<< 32) := by
  obtain ⟨hcfs, hofs, -⟩ := h.bounds
  obtain ⟨-, hb, -, hs, -⟩ := h
  rw [Geometry.word, or_shiftLeft_eq_add (k := 8) (by omega),
    or_shiftLeft_eq_add (k := 16) (by omega), or_shiftLeft_eq_add (k := 24) (by omega),
    or_shiftLeft_eq_add (k := 32) (by omega)]

end Sys2Proof.Machine
end

-- ==== BUILD (rules R187, R190, R192) ====
section
/-! What BUILD leaves: the index of SRC, described by the registers it writes, and for an empty SRC the
index of no blocks. -/

namespace Sys2Proof.Machine

/-- Containers with the same bits from position n on have the same bytes from there on. -/
theorem Container.readByte_eq_of_bit_eq {c d : Container} {n a : Nat}
    (h : ∀ p, n ≤ p → c.bit p = d.bit p) (ha : n ≤ 8 * a) :
    c.bytes.readByte a = d.bytes.readByte a := by
  refine BitVec.eq_of_getLsbD_eq fun k hk => ?_
  rw [← c.bit_byte a hk, ← d.bit_byte a hk, h _ (by omega)]

/-- Settles O43: the container is the built image, and the registers are those of the commit. -/
theorem buildFollowsItsRule : Obligations.BuildFollowsItsRule := by
  unfold Obligations.BuildFollowsItsRule
  intro rbs rss hrbs hrss
  refine ⟨decode_formatB_build (decide_eq_true hrbs) (decide_eq_true hrss), fun s => ?_⟩
  intro g
  refine ⟨execBuild_blockSize rss s, execBuild_capacity, fun hb hcap hwf => ?_⟩
  have hl : g.legal := Geometry.legal_make s.src.len.isLt hb hrss
  obtain ⟨hlen, -, hholds, hrest⟩ := buildImage_spec hl s.src hwf
  refine ⟨buildImage g s.src s.idx, ?_, ?_, hholds, hrest,
    fun a => Container.readByte_eq_of_bit_eq hrest⟩
  · have hn : toWord g.n = s.src.len := BitVec.ofNat_toNat ..
    rw [← hl.word_eq_or, ← hn]
    exact execBuild_ok hb hcap
  · rw [hlen, toNat_toWord_of_lt (hcap.trans_lt s.params.idxCapBits.isLt)]

/-- Settles O44: the registers agree with the image, which holds the contents of rule R187. -/
theorem buildIndexesItsInput : Obligations.BuildIndexesItsInput := by
  unfold Obligations.BuildIndexesItsInput
  intro rbs rss s hb hrss hcap hwf
  have hl := Geometry.legal_make s.src.len.isLt hb hrss
  refine ⟨_, execBuild_ok hb hcap, rfl, State.indexLegal_commitIndex hl hwf hcap, ?_⟩
  obtain ⟨-, -, hholds, -⟩ := buildImage_spec hl s.src hwf
  rwa [State.geometry_eq hl rfl rfl]

/-! ### The empty sequence (rule R192) -/

/-- No bits give no blocks, no superblocks and no fields. -/
theorem Geometry.counts_of_empty {g : Geometry} (hl : g.legal) (hn : g.n = 0) :
    g.blocks = 0 ∧ g.supers = 0 ∧ g.crfs = 0 ∧ g.cap = 0 := by
  obtain ⟨hb, -, hs, -, -, -, -, hcrfs⟩ := hl
  have hblocks : g.blocks = 0 := by
    rw [Geometry.blocks, ceilDiv, hn, Nat.div_eq_of_lt (by omega)]
  have hsupers : g.supers = 0 := by
    rw [Geometry.supers, ceilDiv, hblocks, Nat.div_eq_of_lt (by omega)]
  refine ⟨hblocks, hsupers, by rw [hcrfs, hn]; rfl, ?_⟩
  rw [Geometry.cap, hblocks, hsupers, Nat.zero_mul, Nat.zero_mul]

theorem len_buildImage_of_no_blocks {g : Geometry} (h : g.blocks = 0) (src idx : Container) :
    (buildImage g src idx).len = toWord g.cap := by
  rw [buildImage, h]; rfl

@[simp] theorem rankOnes_zero (g : Geometry) (idx : Container) : rankOnes g idx 0 = 0 := if_pos rfl

theorem exec_rank0 (s : State) : exec .rank0 s = rankQuery (fun i r => i - r) s := rfl

theorem exec_rank1 (s : State) : exec .rank1 s = rankQuery (fun _ r => r) s := rfl

/-- On an index over no bits a rank answers 0 at 0, and any other position is out of range. -/
theorem rankQuery_of_empty {f : Nat → Nat → Nat} (hf : f 0 0 = 0) {t : State}
    (hbuilt : t.status.built = true) (hn : t.idxN = 0) :
    (∃ u, rankQuery f { t with arg0 := 0 } = .next u ∧ u.status.errv = t.status.errv ∧
        u.res0 = 0) ∧
      ∀ p : Word, p ≠ 0 →
        rankQuery f { t with arg0 := p } = .next (({ t with arg0 := p } : State).latched 1) := by
  refine ⟨⟨_, rankQuery_ok f hbuilt (Nat.zero_le _), rfl, ?_⟩, fun p hp => ?_⟩
  · simp [hf]
  · refine rankQuery_range f hbuilt ?_
    simpa [hn, Nat.pos_iff_ne_zero, ← BitVec.toNat_inj] using hp

/-- Settles O45: BUILD commits an image of no blocks, and the ranks then have no bits to count. -/
theorem buildOfTheEmptySequence : Obligations.BuildOfTheEmptySequence := by
  unfold Obligations.BuildOfTheEmptySequence
  intro rbs rss s hempty hb hrss g
  have hl : g.legal := Geometry.legal_make (by decide) hb hrss
  obtain ⟨hblocks, hsupers, hcrfs, hcap⟩ := Geometry.counts_of_empty hl rfl
  have hg : Geometry.make s.src.len.toNat rbs rss = g := by rw [hempty]; rfl
  have hbuild : exec (.build rbs rss) s = .next (s.commitIndex g).complete :=
    hg ▸ execBuild_ok hb (by rw [hg, hcap]; exact Nat.zero_le _)
  refine ⟨_, hbuild, rfl, rfl, hcrfs, hblocks, hsupers, hcap, State.geometry_eq hl rfl rfl, ?_, rfl,
    ?_, rfl, rfl, ?_⟩
  · exact (len_buildImage_of_no_blocks hblocks _ _).trans (by rw [hcap]; rfl)
  · simpa [hcrfs] using hl.word_eq_or
  · have hn : (s.commitIndex g).complete.idxN = 0 := rfl
    intro q hq
    simp only [List.mem_cons, List.not_mem_nil, or_false] at hq
    rcases hq with rfl | rfl
    · simp only [exec_rank0]
      exact rankQuery_of_empty rfl rfl hn
    · simp only [exec_rank1]
      exact rankQuery_of_empty rfl rfl hn

end Sys2Proof.Machine
end

-- ==== RANK0 and RANK1 (rules R193 to R198) ====
section
/-! The walk of the rank engine counts the ones of the indexed sequence; the answers of RANK0 and
RANK1, their sum and their growth follow. -/

namespace Sys2Proof.Machine

/-- Rule R197 on the walk: a state that indexes B holds a legal geometry and the contents for B. -/
theorem rankOnes_of_indexes {s : State} {B : Nat → Bool} (h : s.indexes B) {i : Nat}
    (hi : i ≤ s.idxN.toNat) : rankOnes s.geometry s.idx i = onesBelow B i := by
  obtain ⟨hbuilt, hind, hholds⟩ := h
  exact rankOnes_eq (hind.2 hbuilt).1 hholds hi

/-- A rank query on a state that indexes B. -/
theorem rankQuery_of_indexes (f : Nat → Nat → Nat) {s : State} {B : Nat → Bool} (h : s.indexes B)
    (hi : s.arg0.toNat ≤ s.idxN.toNat) :
    rankQuery f s
      = .next (s.setRes0 (f s.arg0.toNat (onesBelow B s.arg0.toNat))).complete := by
  obtain ⟨hbuilt, -⟩ := id h
  rw [rankQuery_ok f hbuilt hi, rankOnes_of_indexes h hi]

/-- Settles O46: the checks of the rank query, then the walk, which counts ones on an index. -/
theorem rankFollowsItsRule : Obligations.RankFollowsItsRule := by
  unfold Obligations.RankFollowsItsRule
  refine ⟨decodeReadsBackEncode .rank0 rfl, decodeReadsBackEncode .rank1 rfl, fun s => ?_⟩
  rw [exec_rank0, exec_rank1]
  refine ⟨fun hb => ⟨rankQuery_notBuilt _ hb, rankQuery_notBuilt _ hb⟩,
    fun hb hi => ⟨rankQuery_range _ hb hi, rankQuery_range _ hb hi⟩, fun hb hi => ?_⟩
  exact ⟨rankOnes s.geometry s.idx s.arg0.toNat, rankQuery_ok _ hb hi, rankQuery_ok _ hb hi,
    fun _ h => rankOnes_of_indexes h hi⟩

theorem onesBelow_succ (B : Nat → Bool) (i : Nat) :
    onesBelow B (i + 1) = onesBelow B i + (B i).toNat := by
  rw [onesBelow_add]
  cases h : B i <;> simp [h]

/-- Settles O47: the ranks at i are the ones of B below i and the rest of i, and the position i adds
its bit to the one or to the other. -/
theorem rankIsDualAndMonotone : Obligations.RankIsDualAndMonotone := by
  unfold Obligations.RankIsDualAndMonotone
  intro s B h
  refine ⟨fun i => i - onesBelow B i, onesBelow B, fun i hi => ?_, fun i _ => ?_⟩
  · have harg : (toWord i).toNat = i := toNat_toWord_of_lt (hi.trans_lt s.idxN.isLt)
    have hquery (f : Nat → Nat → Nat) : rankQuery f { s with arg0 := toWord i }
        = .next { s.idle with arg0 := toWord i, res0 := toWord (f i (onesBelow B i)) } := by
      have hs : ({ s with arg0 := toWord i } : State).indexes B :=
        State.indexes_of_eq rfl rfl rfl rfl h
      refine (rankQuery_of_indexes f hs (by rwa [harg])).trans ?_
      rw [harg]
      rfl
    exact ⟨hquery fun i r => i - r, hquery fun _ r => r, Nat.sub_add_cancel (onesBelow_le B i)⟩
  · have hsucc := onesBelow_succ B i
    have hle := onesBelow_le B i
    have hbit := (B i).toNat_le
    dsimp only
    omega

end Sys2Proof.Machine
end

-- ==== The error state (rules R213, R217, R252) ====
section
/-! With ERRV set and no command pending, the cases of a step that are left are a turn of the idle
engine, a read, an ignored or a dropped write, and an operand write. -/

namespace Sys2Proof.Machine

/-- Settles O21, by the cases of a step: BUSY = 0 shuts out the engine's step, ERRV = 1 an accepted
CMD write, and no other case but a reset changes more than the statement lists. -/
theorem errorStateIsSticky : Obligations.ErrorStateIsSticky := by
  unfold Obligations.ErrorStateIsSticky
  intro s t herrv hbusy hreset hstep
  rcases step_cases hstep with ⟨⟨hpending, -⟩, -⟩ | ⟨hr, -⟩ | ⟨v, n, rfl⟩ | rfl | ⟨-, hok, -⟩ |
    ⟨-, v, rfl | rfl⟩
  · exact absurd (hbusy.symm.trans hpending) Bool.false_ne_true
  · exact absurd hr hreset
  · rfl
  · rfl
  · exact absurd (hok.symm.trans herrv) Bool.false_ne_true
  · rfl
  · rfl

end Sys2Proof.Machine
end

-- ==== Turns and resets (rules R224, R240, R241, R251, R256) ====
section
/-! What a step answers at each event that is no host access, and the reset state's invariant. -/

namespace Sys2Proof.Machine

/-! ### A step at each event -/

section
variable {s : State} {rest : List Event}

theorem step_empty (h : s.agenda = []) : step s = engineTurn s := by
  rw [step, h]

theorem step_engine (h : s.agenda = .engine :: rest) :
    step s = engineTurn { s with agenda := rest } := by
  rw [step, h]

theorem step_hardwareReset (h : s.agenda = .hardwareReset :: rest) :
    step s = .next (State.resetBlock { s with agenda := rest }) := by
  rw [step, h]

theorem engineTurn_idle (h : s.status.busy = false) : engineTurn s = .next s :=
  if_neg (Bool.eq_false_iff.mp h)

end

/-- Settles O7: an idle engine's turn leaves the state, whether the agenda or its end gives it. -/
theorem idleEngineHasNoStep : Obligations.IdleEngineHasNoStep := by
  unfold Obligations.IdleEngineHasNoStep
  intro s hb
  exact ⟨fun rest h => (step_engine h).trans (engineTurn_idle hb),
    fun h => (step_empty h).trans (engineTurn_idle hb)⟩

/-! ### The two resets -/

theorem writeCtrl_reset {v : Word} (h : v.getLsbD 0 = true) (s : State) :
    writeCtrl v s = s.resetBlock := if_pos h

theorem writeCtrl_ignored {v : Word} (h : v.getLsbD 0 = false) (s : State) :
    writeCtrl v s = s := if_neg (Bool.eq_false_iff.mp h)

/-- Settles O18: the CTRL write and the hardware reset are both `State.resetBlock`. -/
theorem controlWriteResets : Obligations.ControlWriteResets := by
  unfold Obligations.ControlWriteResets
  intro s rest v h
  have hstep : step s = .next (writeCtrl v { s with agenda := rest }) :=
    step_write h (by decide) (by decide)
  refine ⟨fun hv => ?_, fun hv => by rw [hstep, writeCtrl_ignored hv]⟩
  rw [writeCtrl_reset hv] at hstep
  have hhard := step_hardwareReset (s := { s with agenda := .hardwareReset :: rest }) rfl
  exact ⟨hstep.trans hhard.symm, _, hstep, rfl⟩

/-- Settles O19: every field named is a field of `State.resetBlock`, or of `State.reset`. -/
theorem hardwareResetState : Obligations.HardwareResetState := by
  unfold Obligations.HardwareResetState
  refine ⟨fun s rest h => ⟨_, step_hardwareReset h, ?_⟩, ?_⟩
  · exact ⟨rfl, rfl, rfl, rfl, rfl, rfl, rfl, rfl, rfl, rfl, rfl⟩
  · exact ⟨rfl, rfl, rfl, rfl, rfl, rfl, rfl, rfl, rfl, rfl⟩

/-- Settles O57, conjunct by conjunct: empty containers, no error, nothing built, BASE aligned. -/
theorem resetMeetsTheInvariant : Obligations.ResetMeetsTheInvariant := by
  unfold Obligations.ResetMeetsTheInvariant
  have hindex : State.reset.indexLegal :=
    ⟨fun _ => ⟨rfl, rfl, rfl⟩, fun hbuilt => absurd hbuilt Bool.false_ne_true⟩
  exact ⟨Container.legal_empty _, Container.legal_empty _, Status.legal_reset, hindex, rfl⟩

end Sys2Proof.Machine
end

-- ==== The BUSY window (rules R250, R251, R253, R255) ====
section
/-! A CMD write opens the window, reads inside it answer what rule R253 defines, and the engine's
turn closes it. -/

namespace Sys2Proof.Machine

/-- Settles O15: the idle block takes any word, and an illegal one fails as rule R79 says. -/
theorem commandWriteIsAccepted : Obligations.CommandWriteIsAccepted := by
  unfold Obligations.CommandWriteIsAccepted
  intro s rest w hb he h
  have hstep := (step_write h (by decide) (by decide)).trans
    (congrArg _ (writeCmd_accepted (s := { s with agenda := rest }) hb he w))
  refine ⟨hstep, fun t ht hill hturn => ?_⟩
  obtain rfl := Host.Outcome.next.inj (hstep.symm.trans ht)
  exact (illegalWordsRaiseIllegalCommand _ hturn).1 hill

/-- With BUSY = 1 a result register answers a free draw (rule R253). -/
theorem State.answerResult_busy {s : State} (h : s.status.busy = true) (v : Word) :
    s.answerResult v = s.answerFree := if_pos h

/-- Settles O12: the result registers answer through `State.answerResult`, and no other register
does. -/
theorem busyReadsOfResultsAreFree : Obligations.BusyReadsOfResultsAreFree := by
  unfold Obligations.BusyReadsOfResultsAreFree
  intro s rest hb
  refine ⟨fun off hoff h => ?_, fun r hr h => ?_, fun off hlo hhi h8 h => ?_⟩
  · have hfree (v : Word) := State.answerResult_busy (s := { s with agenda := rest }) hb v
    simp only [List.mem_cons, List.not_mem_nil, or_false] at hoff
    rcases hoff with rfl | rfl | rfl | rfl <;>
      exact (step_read h (by decide) (by decide)).trans (congrArg _ (hfree _))
  · simp only [List.mem_cons, List.not_mem_nil, or_false] at hr
    rcases hr with rfl | rfl | rfl | rfl | rfl | rfl | rfl <;>
      exact step_read h (by simp) (by simp)
  · rw [step_read h (by omega) h8, WindowReg.at_reserved hlo]; rfl

/-! ### A pending command completes -/

/-- The events to come hold no reset, hard or soft, and no access that is refused. -/
def State.uninterrupted (s : State) : Prop :=
  Event.hardwareReset ∉ s.agenda ∧
    (∀ a, Event.host a ∈ s.agenda → windowOffset s.params.base a ≠ none) ∧
    ∀ v, Event.host ⟨s.params.base, 8, .write v⟩ ∈ s.agenda → v.getLsbD 0 = false

theorem State.uninterrupted.not_resets {s : State} (h : s.uninterrupted) : ¬ s.resets := by
  obtain ⟨hhard, -, hsoft⟩ := h
  rintro (⟨rest, ha⟩ | ⟨v, rest, ha, hv⟩)
  · exact hhard (ha ▸ List.mem_cons_self)
  · exact Bool.false_ne_true ((hsoft v (ha ▸ List.mem_cons_self)).symm.trans hv)

theorem State.uninterrupted.of_tail {s t : State} (h : s.uninterrupted)
    (hp : t.params = s.params) (ha : t.agenda = s.agenda.tail) : t.uninterrupted := by
  obtain ⟨hhard, hacc, hsoft⟩ := h
  have hmem {e : Event} (he : e ∈ t.agenda) : e ∈ s.agenda := List.mem_of_mem_tail (ha ▸ he)
  unfold State.uninterrupted
  rw [hp]
  exact ⟨fun he => hhard (hmem he), fun a he => hacc a (hmem he), fun v he => hsoft v (hmem he)⟩

/-- An event that is not the engine's turn is then an access, and it is answered. -/
theorem State.uninterrupted.exists_next {s : State} {e : Event} {rest : List Event}
    (h : s.uninterrupted) (ha : s.agenda = e :: rest) (he : e ≠ .engine) :
    ∃ t, step s = .next t := by
  obtain ⟨hhard, hacc, -⟩ := h
  have hmem : e ∈ s.agenda := ha ▸ List.mem_cons_self
  cases e with
  | host a =>
    have hoff := Option.ne_none_iff_exists'.mp (hacc a hmem)
    exact (outsideAccessIsRefused s a rest ha).2 (exists_windowOffset_iff.mp hoff)
  | engine => exact absurd rfl he
  | hardwareReset => exact absurd hmem hhard

/-- `u` is `s` but for the events to come, what the host holds, and OVR. -/
def State.stillPending (s u : State) : Prop :=
  u = { s with
    agenda := u.agenda, readData := u.readData, draws := u.draws
    status := { s.status with ovr := u.status.ovr } }

theorem State.stillPending.trans {s t u : State} (hst : s.stillPending t) (htu : t.stillPending u) :
    s.stillPending u := by
  unfold State.stillPending at hst htu ⊢
  rw [hst] at htu
  exact htu

theorem State.stillPending.cmd_eq {s u : State} (h : s.stillPending u) : u.cmd = s.cmd := by
  rw [State.stillPending] at h
  rw [h]

/-- While a command is pending and nothing interrupts it, an event that is not the engine's turn
leaves it pending. -/
theorem step_while_pending {s : State} {e : Event} {rest : List Event} (hb : s.status.busy = true)
    (hn : s.uninterrupted) (ha : s.agenda = e :: rest) (he : e ≠ .engine) :
    ∃ t, step s = .next t ∧ t.agenda = rest ∧ t.status.busy = true ∧ t.uninterrupted ∧
      s.stillPending t := by
  have hturn : ¬ s.enginesTurn := by
    rintro ⟨-, hnil | ⟨r, hcons⟩⟩
    · cases ha.symm.trans hnil
    · exact he (List.cons.inj (ha.symm.trans hcons)).1
  obtain ⟨t, hstep⟩ := hn.exists_next ha he
  have hframe := step_pending_frame hstep hb hturn hn.not_resets
  have hagenda : t.agenda = s.agenda.tail := by rw [hframe]
  refine ⟨t, hstep, by rw [hagenda, ha, List.tail_cons], by rw [hframe]; exact hb,
    hn.of_tail (parametersNeverChange s t hstep) hagenda, ?_⟩
  rw [State.stillPending, hagenda]
  exact hframe

/-- The engine's turn comes within as many steps as there are events, the command still pending; one
step more is that turn. By induction on the agenda. -/
theorem run_reaches_enginesTurn (l : List Event) {s : State} (ha : s.agenda = l)
    (hb : s.status.busy = true) (hn : s.uninterrupted) :
    ∃ k u, k ≤ l.length ∧ Host.Core.run core k s = .next u ∧
      Host.Core.run core (k + 1) s = step u ∧ u.enginesTurn ∧ s.stillPending u := by
  induction l generalizing s with
  | nil => exact ⟨0, s, le_rfl, rfl, run_one s, ⟨hb, .inl ha⟩, rfl⟩
  | cons e rest ih =>
    by_cases he : e = .engine
    · subst he
      exact ⟨0, s, Nat.zero_le _, rfl, run_one s, ⟨hb, .inr ⟨rest, ha⟩⟩, rfl⟩
    · obtain ⟨t, hstep, hrest, hbt, hnt, hst⟩ := step_while_pending hb hn ha he
      obtain ⟨k, u, hk, hrun, hlast, hturn, htu⟩ := ih hrest hbt hnt
      exact ⟨k + 1, u, Nat.succ_le_succ hk, (run_succ_of_step k hstep).trans hrun,
        (run_succ_of_step (k + 1) hstep).trans hlast, hturn, hst.trans htu⟩

/-- The engine's turn answers a state with BUSY = 0: the latch of an illegal word, or the end of the
command. -/
theorem step_enginesTurn_completes {u : State} (h : u.enginesTurn) :
    ∃ t, step u = .next t ∧ t.status.busy = false ∧
      ((decode u.cmd = none ∧ t = u.turnTaken.latched 4) ∨
        ∃ i, decode u.cmd = some i ∧ exec i u.turnTaken = .next t) := by
  rw [step_enginesTurn h]
  rcases runCommand_cases u.turnTaken with ⟨hd, hrun⟩ | ⟨i, hd, hrun⟩
  · exact ⟨_, hrun, rfl, .inl ⟨hd, rfl⟩⟩
  · obtain ⟨t, hexec, hbusy, -⟩ := everyCommandEnds i u.turnTaken
    exact ⟨t, hrun.trans hexec, hbusy, .inr ⟨i, hd, hexec⟩⟩

/-- Settles O9: the run reaches the engine's turn with the command still pending, and that turn ends
it. -/
theorem pendingCommandCompletes : Obligations.PendingCommandCompletes := by
  unfold Obligations.PendingCommandCompletes
  intro s hb hhard hacc hsoft
  obtain ⟨k, u, hk, hrun, hlast, hturn, hsu⟩ :=
    run_reaches_enginesTurn s.agenda rfl hb ⟨hhard, hacc, hsoft⟩
  obtain ⟨t, hstep, hbusy, hcommand⟩ := step_enginesTurn_completes hturn
  refine ⟨k, u, t, hk, hrun, hturn, hsu, hlast.trans hstep, hbusy, ?_⟩
  rw [← hsu.cmd_eq]
  rcases hcommand with ⟨hd, ht⟩ | ⟨i, hd, hexec⟩ <;> rw [hd]
  · exact ht
  · exact hexec

end Sys2Proof.Machine
end
